-- ==== Sys2Proof/Word.lean ====
section
/-! DEFINITION. The word types of the block (spec/00_scope.md rules R8 to R11): every register, address and
PC value is a 32-bit vector, a memory cell is a byte, and a register index is a 5-bit instruction field. -/

namespace Sys2Proof

/-- A register, address, PC or instruction-word value (XLEN = 32, rule R8). -/
abbrev Word := BitVec 32

/-- One byte of the memory region (rule R50). -/
abbrev Byte := BitVec 8

/-- A register index, 0 to 31, as the 5-bit fields `rd`, `rs1`, `rs2` hold it (rules R20, R81). -/
abbrev Reg := BitVec 5

/-- Byte `k` of a word, bits 8k+7 .. 8k (rule R53). -/
abbrev Word.byte (v : Word) (k : Nat) : Byte := v.extractLsb' (8 * k) 8

end Sys2Proof
end

