-- ==== Sys2Proof/Config.lean ====
section
/-! DEFINITION. The named parameters of the block (spec/00_scope.md rule R8): MEM_BASE, MEM_SIZE and
ALIGN_CHECK. They are fixed for a machine; a model takes them as an argument, so they stand in one record that
every state carries unchanged (notes/assumptions/1.md). The fourth parameter, MEM_INIT, is the memory a state
is constructed with (Machine/State.lean). The spec leaves no value free (93_implementation_defined.md, part 1),
so no constant without a body stands here. -/

namespace Sys2Proof

/-- MEM_BASE, MEM_SIZE and ALIGN_CHECK of rule R8. -/
structure Config where
  memBase    : Word
  memSize    : Nat
  alignCheck : Bool
deriving DecidableEq, Repr

/-- The constraint rule R8 puts on the parameters: 1 <= MEM_SIZE and MEM_BASE + MEM_SIZE <= 2^32. -/
abbrev Config.valid (c : Config) : Prop :=
  1 ≤ c.memSize ∧ c.memBase.toNat + c.memSize ≤ 2 ^ 32

/-- The parameter values `State.reset` takes: the example region of the spec's test vectors
(95_test_vectors.md, common setting) and the default ALIGN_CHECK = false of rule R8.
DESIGN CHOICE, unsafe for a claim about `State.reset` alone: notes/assumptions/2.md. -/
def Config.sample : Config := ⟨0x80000000#32, 0x10000, false⟩

end Sys2Proof
end

