-- ==== Sys2Proof/Machine/State.lean ====
section
/-! DEFINITION. The state of the block, the two conditions a step can report, and the state after reset
(spec/10_state.md, 60_exceptions.md rules R250 to R253, 70_reset_and_hazards.md rule R280). -/

namespace Sys2Proof.Machine

/-- What an access is for: the `kind` of a MemoryFault report (rule R253). -/
inductive AccessKind where
  | fetch | load | store
deriving DecidableEq, Repr

/-- The width of a bus access: 8, 16 or 32 bits, that is 1, 2 or 4 bytes (rules R36, R59). -/
inductive Width where
  | w8 | w16 | w32
deriving DecidableEq, Repr

/-- The two error conditions of the block, with the fields of their reports (rules R250 to R253). A step that
raises one changes nothing: the state after it is the state before it (rule R252; notes/assumptions/11.md). -/
inductive Fault where
  /-- Raised by the decode phase of a step whose word is illegal (R250); records the word. Safe: the spec names
  this outcome for every such word, and nothing runs past it. -/
  | illegalInstruction (inst : Word)
  /-- Raised by the bus when it refuses a fetch, a load or a store (R51, R251); records the kind, the address
  and the width. Safe: the spec names this outcome, and nothing runs past it. -/
  | memoryFault (kind : AccessKind) (addr : Word) (width : Width)
deriving DecidableEq, Repr

/-- Why the model gives an instruction no meaning. -/
inductive Refusal where
  /-- Raised by no arm of `exec`: every instruction of the table has its meaning. Safe. -/
  | notModelled (mnemonic : String)
deriving DecidableEq, Repr

/-- The bytes of the memory region (rule R50) that differ from what an unlisted address reads as, by rising
address; `Memory.wf` (Machine/Memory.lean) is that canonical form. -/
abbrev Memory := List Host.Cell

/-- The architectural state is exactly the register file, the PC and the memory region (10_state.md, opening);
`cfg` is the model's own field: the machine's parameters, which no step changes (notes/assumptions/1.md). -/
structure State where
  /-- x0 .. x31 (rule R20). Slot 0 is never written and never read: Machine/Ops.lean's ports gate it (R21, R22). -/
  regs : Vector Word 32
  /-- The address of the instruction to execute (rule R26). -/
  pc : Word
  /-- The memory region reached through the bus (rule R50). -/
  mem : Memory
  /-- MEM_BASE, MEM_SIZE and ALIGN_CHECK (rule R8). -/
  cfg : Config
deriving DecidableEq, Repr

/-- Construction, which is the block's reset (rules R35, R280): PC = MEM_BASE, x2 = (MEM_BASE + MEM_SIZE) mod 2^32,
every other register 0; the memory holds MEM_INIT, which reset does not touch. -/
def State.construct (c : Config) (memInit : Memory) : State where
  regs := (Vector.replicate 32 0#32).set 2 (c.memBase + BitVec.ofNat 32 c.memSize)
  pc   := c.memBase
  mem  := memInit
  cfg  := c

/-- The machine right after reset, at the sample parameters and with no byte placed
(notes/assumptions/2.md, 3.md, 4.md). -/
def State.reset : State := State.construct Config.sample []

end Sys2Proof.Machine
end

