-- ==== Sys2Proof/Machine/Flags.lean ====
section
/-! DEFINITION. Comparisons. The block has no status flags and no condition codes (spec/10_state.md rule R30), so there
is no flag computation to write: branches compare registers directly, and set-less-than writes 0 or 1. This file holds
the comparator both use (spec/40_datapath.md rules R124, R125). -/

namespace Sys2Proof.Machine

/-- `a <s b`: signed comparison (rule R10). -/
def ltSigned (a b : Word) : Bool := decide (a.toInt < b.toInt)

/-- `a <u b`: unsigned comparison (rule R10). -/
def ltUnsigned (a b : Word) : Bool := decide (a.toNat < b.toNat)

/-- The result of a set-less-than: `c ? 1 : 0` (rule R124). -/
def boolWord (c : Bool) : Word := if c then 1#32 else 0#32

/-- The six branch conditions (rule R125). -/
inductive BranchCond where
  | eq | ne | lt | ge | ltu | geu
deriving DecidableEq, Repr

/-- The branch comparator: `taken` (rule R125). -/
def taken (c : BranchCond) (a b : Word) : Bool :=
  match c with
  | .eq  => a == b
  | .ne  => a != b
  | .lt  => ltSigned a b
  | .ge  => !ltSigned a b
  | .ltu => ltUnsigned a b
  | .geu => !ltUnsigned a b

end Sys2Proof.Machine
end

