-- ==== Sys2Proof/Machine/Alu.lean ====
section
/-! DEFINITION. The ALU (spec/40_datapath.md rule R124; arithmetic laws in spec/44_alu.md rule R220). -/

namespace Sys2Proof.Machine

/-- The ten operations (rule R124). -/
inductive AluOp where
  | add | sub | sll | slt | sltu | xor | srl | sra | or | and
deriving DecidableEq, Repr

/-- The shift amount: the low 5 bits of the second operand (rules R89, R124). -/
def shiftAmount (b : Word) : Nat := (b.extractLsb' 0 5).toNat

/-- `alu(op, a, bop)` (rule R124): 32 bits, wrapping, no flag. -/
def alu (op : AluOp) (a b : Word) : Word :=
  match op with
  | .add  => a + b
  | .sub  => a - b
  | .sll  => a <<< shiftAmount b
  | .slt  => boolWord (ltSigned a b)
  | .sltu => boolWord (ltUnsigned a b)
  | .xor  => a ^^^ b
  | .srl  => a >>> shiftAmount b
  | .sra  => a.sshiftRight (shiftAmount b)
  | .or   => a ||| b
  | .and  => a &&& b

end Sys2Proof.Machine
end

