-- ==== Sys2Proof/Syntax.lean ====
section
/-! DEFINITION. The instructions: one constructor per row of spec/opcode_table.json, 47 in all (spec/00_scope.md
rule R2, 30_encoding.md rules R90 to R92, R100). A constructor carries the operands its rule lists, in the
order of the assembler syntax (rule R102), each at its encoded width. Branch and JAL offsets carry their implicit
bit 0, which `Instr.wf` requires to be 0. FENCE and the CSR instructions carry the operands their rules name
although the block ignores them; bits that are no operand (rule R96) are carried by none
(notes/assumptions/20.md). -/

namespace Sys2Proof

inductive Instr where
  -- upper immediates (41_upper_immediate.md): `imm` is inst[31:12]
  | lui    (rd : Reg) (imm : BitVec 20)
  | auipc  (rd : Reg) (imm : BitVec 20)
  -- jumps (42_control_transfer.md)
  | jal    (rd : Reg) (off : BitVec 21)
  | jalr   (rd rs1 : Reg) (imm : BitVec 12)
  -- branches (42_control_transfer.md)
  | beq    (rs1 rs2 : Reg) (off : BitVec 13)
  | bne    (rs1 rs2 : Reg) (off : BitVec 13)
  | blt    (rs1 rs2 : Reg) (off : BitVec 13)
  | bge    (rs1 rs2 : Reg) (off : BitVec 13)
  | bltu   (rs1 rs2 : Reg) (off : BitVec 13)
  | bgeu   (rs1 rs2 : Reg) (off : BitVec 13)
  -- loads (43_load_store.md)
  | lb     (rd rs1 : Reg) (imm : BitVec 12)
  | lh     (rd rs1 : Reg) (imm : BitVec 12)
  | lw     (rd rs1 : Reg) (imm : BitVec 12)
  | lbu    (rd rs1 : Reg) (imm : BitVec 12)
  | lhu    (rd rs1 : Reg) (imm : BitVec 12)
  | lwu    (rd rs1 : Reg) (imm : BitVec 12)
  -- stores (43_load_store.md): data register first, base register second
  | sb     (rs2 rs1 : Reg) (imm : BitVec 12)
  | sh     (rs2 rs1 : Reg) (imm : BitVec 12)
  | sw     (rs2 rs1 : Reg) (imm : BitVec 12)
  -- register-immediate ALU (44_alu.md section 1)
  | addi   (rd rs1 : Reg) (imm : BitVec 12)
  | slti   (rd rs1 : Reg) (imm : BitVec 12)
  | sltiu  (rd rs1 : Reg) (imm : BitVec 12)
  | xori   (rd rs1 : Reg) (imm : BitVec 12)
  | ori    (rd rs1 : Reg) (imm : BitVec 12)
  | andi   (rd rs1 : Reg) (imm : BitVec 12)
  | slli   (rd rs1 : Reg) (shamt : BitVec 5)
  | srli   (rd rs1 : Reg) (shamt : BitVec 5)
  | srai   (rd rs1 : Reg) (shamt : BitVec 5)
  -- register-register ALU (44_alu.md section 2)
  | add    (rd rs1 rs2 : Reg)
  | sub    (rd rs1 rs2 : Reg)
  | sll    (rd rs1 rs2 : Reg)
  | slt    (rd rs1 rs2 : Reg)
  | sltu   (rd rs1 rs2 : Reg)
  | xor    (rd rs1 rs2 : Reg)
  | srl    (rd rs1 rs2 : Reg)
  | sra    (rd rs1 rs2 : Reg)
  | or     (rd rs1 rs2 : Reg)
  | and    (rd rs1 rs2 : Reg)
  -- stubs (45_system.md)
  | fence  (fm pred succ : BitVec 4) (rs1 rd : Reg)
  | csrrw  (rd : Reg) (csr : BitVec 12) (rs1 : Reg)
  | csrrs  (rd : Reg) (csr : BitVec 12) (rs1 : Reg)
  | csrrc  (rd : Reg) (csr : BitVec 12) (rs1 : Reg)
  | csrrwi (rd : Reg) (csr : BitVec 12) (uimm : BitVec 5)
  | csrrsi (rd : Reg) (csr : BitVec 12) (uimm : BitVec 5)
  | csrrci (rd : Reg) (csr : BitVec 12) (uimm : BitVec 5)
  | ecall
  | ebreak
deriving DecidableEq, Repr

end Sys2Proof
end

