-- ==== Sys2Proof/Decode.lean ====
section
/-! DEFINITION. The field extractor, the dispatcher and the encoder (spec/30_encoding.md), and the opcode table
(spec/opcode_table.json). Decoding is total on every word and on any bytes: what is no instruction is rejected, under
the name of the illegal class of rule R97 it falls in. The encoder is written from the format table of rule R82. -/

namespace Sys2Proof

/-! ## Fields of an instruction word (rules R81 to R89) -/

namespace Inst

/-- `opcode` = inst[6:0] (R81). -/
def opcode (w : Word) : BitVec 7 := w.extractLsb' 0 7
/-- `rd` = inst[11:7] (R81). -/
def rd (w : Word) : Reg := w.extractLsb' 7 5
/-- `funct3` = inst[14:12] (R81). -/
def funct3 (w : Word) : BitVec 3 := w.extractLsb' 12 3
/-- `rs1` = inst[19:15] (R81). -/
def rs1 (w : Word) : Reg := w.extractLsb' 15 5
/-- `rs2` = inst[24:20] (R81). -/
def rs2 (w : Word) : Reg := w.extractLsb' 20 5
/-- `funct7` = inst[31:25] (R81). -/
def funct7 (w : Word) : BitVec 7 := w.extractLsb' 25 7
/-- `shamt` = inst[24:20] (R89). -/
def shamt (w : Word) : BitVec 5 := w.extractLsb' 20 5

/-- The 12 bits of the I-immediate, inst[31:20] (R84). -/
def imm12I (w : Word) : BitVec 12 := w.extractLsb' 20 12
/-- The 12 bits of the S-immediate, inst[31:25] then inst[11:7] (R85). -/
def imm12S (w : Word) : BitVec 12 := w.extractLsb' 25 7 ++ w.extractLsb' 7 5
/-- The 13 bits of the B-immediate: inst[31], inst[7], inst[30:25], inst[11:8], then 0 (R86). -/
def off13B (w : Word) : BitVec 13 :=
  w.extractLsb' 31 1 ++ w.extractLsb' 7 1 ++ w.extractLsb' 25 6 ++ w.extractLsb' 8 4 ++ 0#1
/-- The 20 bits of the U-immediate that the word holds, inst[31:12] (R87). -/
def imm20U (w : Word) : BitVec 20 := w.extractLsb' 12 20
/-- The 21 bits of the J-immediate: inst[31], inst[19:12], inst[20], inst[30:21], then 0 (R88). -/
def off21J (w : Word) : BitVec 21 :=
  w.extractLsb' 31 1 ++ w.extractLsb' 12 8 ++ w.extractLsb' 20 1 ++ w.extractLsb' 21 10 ++ 0#1

/-- FENCE's `fm` = inst[31:28] (R230). -/
def fm (w : Word) : BitVec 4 := w.extractLsb' 28 4
/-- FENCE's `pred` = inst[27:24] (R230). -/
def pred (w : Word) : BitVec 4 := w.extractLsb' 24 4
/-- FENCE's `succ` = inst[23:20] (R230). -/
def succ (w : Word) : BitVec 4 := w.extractLsb' 20 4
/-- The CSR address, inst[31:20] (R231). -/
def csr (w : Word) : BitVec 12 := w.extractLsb' 20 12
/-- The CSR immediate, inst[19:15] (R234). -/
def uimm (w : Word) : BitVec 5 := w.extractLsb' 15 5

end Inst

/-! ## The dispatcher (rule R95) -/

/-- Why a word, or a list of bytes, is no instruction: the illegal classes (a) to (g) of rule R97, and a list too
short to hold a word. The hardware's report keeps the word alone (rule R253); the class is for the reader. -/
inductive Reject where
  | undefinedOpcode   -- (a)
  | branchFunct3      -- (b)
  | loadFunct3        -- (c)
  | storeFunct3       -- (d)
  | opImmFunct7       -- (e)
  | opFunct7          -- (f)
  | systemFunct3      -- (g)
  | truncated         -- fewer than four bytes
deriving DecidableEq, Repr

open Inst in
/-- BRANCH, opcode 1100011 (R92, R95). -/
def decodeBranch (w : Word) : Except Reject Instr :=
  match funct3 w with
  | 0b000#3 => .ok (.beq  (rs1 w) (rs2 w) (off13B w))
  | 0b001#3 => .ok (.bne  (rs1 w) (rs2 w) (off13B w))
  | 0b100#3 => .ok (.blt  (rs1 w) (rs2 w) (off13B w))
  | 0b101#3 => .ok (.bge  (rs1 w) (rs2 w) (off13B w))
  | 0b110#3 => .ok (.bltu (rs1 w) (rs2 w) (off13B w))
  | 0b111#3 => .ok (.bgeu (rs1 w) (rs2 w) (off13B w))
  | _       => .error .branchFunct3

open Inst in
/-- LOAD, opcode 0000011 (R92, R95; LWU at funct3 110: 90_conflicts.md C4). -/
def decodeLoad (w : Word) : Except Reject Instr :=
  match funct3 w with
  | 0b000#3 => .ok (.lb  (rd w) (rs1 w) (imm12I w))
  | 0b001#3 => .ok (.lh  (rd w) (rs1 w) (imm12I w))
  | 0b010#3 => .ok (.lw  (rd w) (rs1 w) (imm12I w))
  | 0b100#3 => .ok (.lbu (rd w) (rs1 w) (imm12I w))
  | 0b101#3 => .ok (.lhu (rd w) (rs1 w) (imm12I w))
  | 0b110#3 => .ok (.lwu (rd w) (rs1 w) (imm12I w))
  | _       => .error .loadFunct3

open Inst in
/-- STORE, opcode 0100011 (R92, R95). -/
def decodeStore (w : Word) : Except Reject Instr :=
  match funct3 w with
  | 0b000#3 => .ok (.sb (rs2 w) (rs1 w) (imm12S w))
  | 0b001#3 => .ok (.sh (rs2 w) (rs1 w) (imm12S w))
  | 0b010#3 => .ok (.sw (rs2 w) (rs1 w) (imm12S w))
  | _       => .error .storeFunct3

open Inst in
/-- OP-IMM, opcode 0010011; funct7 is consulted for funct3 101 alone (R92, R93, R95). -/
def decodeOpImm (w : Word) : Except Reject Instr :=
  match funct3 w with
  | 0b000#3 => .ok (.addi  (rd w) (rs1 w) (imm12I w))
  | 0b010#3 => .ok (.slti  (rd w) (rs1 w) (imm12I w))
  | 0b011#3 => .ok (.sltiu (rd w) (rs1 w) (imm12I w))
  | 0b100#3 => .ok (.xori  (rd w) (rs1 w) (imm12I w))
  | 0b110#3 => .ok (.ori   (rd w) (rs1 w) (imm12I w))
  | 0b111#3 => .ok (.andi  (rd w) (rs1 w) (imm12I w))
  | 0b001#3 => .ok (.slli  (rd w) (rs1 w) (shamt w))
  | _ =>
    match funct7 w with
    | 0b0000000#7 => .ok (.srli (rd w) (rs1 w) (shamt w))
    | 0b0100000#7 => .ok (.srai (rd w) (rs1 w) (shamt w))
    | _           => .error .opImmFunct7

open Inst in
/-- OP, opcode 0110011; funct7 is consulted for funct3 000 and 101 alone (R92, R93, R95). -/
def decodeOp (w : Word) : Except Reject Instr :=
  match funct3 w with
  | 0b000#3 =>
    match funct7 w with
    | 0b0000000#7 => .ok (.add (rd w) (rs1 w) (rs2 w))
    | 0b0100000#7 => .ok (.sub (rd w) (rs1 w) (rs2 w))
    | _           => .error .opFunct7
  | 0b001#3 => .ok (.sll  (rd w) (rs1 w) (rs2 w))
  | 0b010#3 => .ok (.slt  (rd w) (rs1 w) (rs2 w))
  | 0b011#3 => .ok (.sltu (rd w) (rs1 w) (rs2 w))
  | 0b100#3 => .ok (.xor  (rd w) (rs1 w) (rs2 w))
  | 0b110#3 => .ok (.or   (rd w) (rs1 w) (rs2 w))
  | 0b111#3 => .ok (.and  (rd w) (rs1 w) (rs2 w))
  | _ =>
    match funct7 w with
    | 0b0000000#7 => .ok (.srl (rd w) (rs1 w) (rs2 w))
    | 0b0100000#7 => .ok (.sra (rd w) (rs1 w) (rs2 w))
    | _           => .error .opFunct7

open Inst in
/-- SYSTEM, opcode 1110011; under funct3 000 bit 20 alone selects (R92, R94, R95). -/
def decodeSystem (w : Word) : Except Reject Instr :=
  match funct3 w with
  | 0b000#3 => if w.getLsbD 20 then .ok .ebreak else .ok .ecall
  | 0b001#3 => .ok (.csrrw  (rd w) (csr w) (rs1 w))
  | 0b010#3 => .ok (.csrrs  (rd w) (csr w) (rs1 w))
  | 0b011#3 => .ok (.csrrc  (rd w) (csr w) (rs1 w))
  | 0b101#3 => .ok (.csrrwi (rd w) (csr w) (uimm w))
  | 0b110#3 => .ok (.csrrsi (rd w) (csr w) (uimm w))
  | 0b111#3 => .ok (.csrrci (rd w) (csr w) (uimm w))
  | _       => .error .systemFunct3

open Inst in
/-- `decode(inst)` of rule R95: opcode first (R91), then funct3, then funct7 where it is consulted. -/
def decode (w : Word) : Except Reject Instr :=
  match opcode w with
  | 0b0110111#7 => .ok (.lui   (rd w) (imm20U w))
  | 0b0010111#7 => .ok (.auipc (rd w) (imm20U w))
  | 0b1101111#7 => .ok (.jal   (rd w) (off21J w))
  | 0b1100111#7 => .ok (.jalr  (rd w) (rs1 w) (imm12I w))
  | 0b1100011#7 => decodeBranch w
  | 0b0000011#7 => decodeLoad w
  | 0b0100011#7 => decodeStore w
  | 0b0010011#7 => decodeOpImm w
  | 0b0110011#7 => decodeOp w
  | 0b0001111#7 => .ok (.fence (fm w) (pred w) (succ w) (rs1 w) (rd w))
  | 0b1110011#7 => decodeSystem w
  | _           => .error .undefinedOpcode

/-- Four bytes, the one at the lowest address first, as a word: little-endian (rule R54). -/
def wordOfBytes (b0 b1 b2 b3 : Byte) : Word := b3 ++ b2 ++ b1 ++ b0

/-- The instruction at the head of a list of bytes, with the bytes after it: every instruction is one
little-endian word of four bytes (rule R80). -/
def decodeBytes : List Byte → Except Reject (Instr × List Byte)
  | b0 :: b1 :: b2 :: b3 :: rest =>
    match decode (wordOfBytes b0 b1 b2 b3) with
    | .ok i    => .ok (i, rest)
    | .error r => .error r
  | _ => .error .truncated

/-! ## The encoder (rules R82, R91, R92) -/

/-- R format: funct7 rs2 rs1 funct3 rd opcode. -/
def encR (funct7 : BitVec 7) (rs2 rs1 : Reg) (funct3 : BitVec 3) (rd : Reg) (opcode : BitVec 7) : Word :=
  funct7 ++ rs2 ++ rs1 ++ funct3 ++ rd ++ opcode

/-- I format: imm[11:0] rs1 funct3 rd opcode. -/
def encI (imm : BitVec 12) (rs1 : Reg) (funct3 : BitVec 3) (rd : Reg) (opcode : BitVec 7) : Word :=
  imm ++ rs1 ++ funct3 ++ rd ++ opcode

/-- S format: imm[11:5] rs2 rs1 funct3 imm[4:0] opcode. -/
def encS (imm : BitVec 12) (rs2 rs1 : Reg) (funct3 : BitVec 3) (opcode : BitVec 7) : Word :=
  imm.extractLsb' 5 7 ++ rs2 ++ rs1 ++ funct3 ++ imm.extractLsb' 0 5 ++ opcode

/-- B format: imm[12] imm[10:5] rs2 rs1 funct3 imm[4:1] imm[11] opcode. -/
def encB (off : BitVec 13) (rs2 rs1 : Reg) (funct3 : BitVec 3) (opcode : BitVec 7) : Word :=
  off.extractLsb' 12 1 ++ off.extractLsb' 5 6 ++ rs2 ++ rs1 ++ funct3
    ++ off.extractLsb' 1 4 ++ off.extractLsb' 11 1 ++ opcode

/-- U format: imm[31:12] rd opcode. -/
def encU (imm : BitVec 20) (rd : Reg) (opcode : BitVec 7) : Word :=
  imm ++ rd ++ opcode

/-- J format: imm[20] imm[10:1] imm[11] imm[19:12] rd opcode. -/
def encJ (off : BitVec 21) (rd : Reg) (opcode : BitVec 7) : Word :=
  off.extractLsb' 20 1 ++ off.extractLsb' 1 10 ++ off.extractLsb' 11 1 ++ off.extractLsb' 12 8
    ++ rd ++ opcode

/-- The word of an instruction. Bits that are no operand and that the dispatcher does not consult (rule R96) are
written as the canonical words of the spec have them, that is 0. -/
def encode : Instr → Word
  | .lui rd imm => encU imm rd 0b0110111#7
  | .auipc rd imm => encU imm rd 0b0010111#7
  | .jal rd off => encJ off rd 0b1101111#7
  | .jalr rd rs1 imm => encI imm rs1 0b000#3 rd 0b1100111#7
  | .beq rs1 rs2 off => encB off rs2 rs1 0b000#3 0b1100011#7
  | .bne rs1 rs2 off => encB off rs2 rs1 0b001#3 0b1100011#7
  | .blt rs1 rs2 off => encB off rs2 rs1 0b100#3 0b1100011#7
  | .bge rs1 rs2 off => encB off rs2 rs1 0b101#3 0b1100011#7
  | .bltu rs1 rs2 off => encB off rs2 rs1 0b110#3 0b1100011#7
  | .bgeu rs1 rs2 off => encB off rs2 rs1 0b111#3 0b1100011#7
  | .lb rd rs1 imm => encI imm rs1 0b000#3 rd 0b0000011#7
  | .lh rd rs1 imm => encI imm rs1 0b001#3 rd 0b0000011#7
  | .lw rd rs1 imm => encI imm rs1 0b010#3 rd 0b0000011#7
  | .lbu rd rs1 imm => encI imm rs1 0b100#3 rd 0b0000011#7
  | .lhu rd rs1 imm => encI imm rs1 0b101#3 rd 0b0000011#7
  | .lwu rd rs1 imm => encI imm rs1 0b110#3 rd 0b0000011#7
  | .sb rs2 rs1 imm => encS imm rs2 rs1 0b000#3 0b0100011#7
  | .sh rs2 rs1 imm => encS imm rs2 rs1 0b001#3 0b0100011#7
  | .sw rs2 rs1 imm => encS imm rs2 rs1 0b010#3 0b0100011#7
  | .addi rd rs1 imm => encI imm rs1 0b000#3 rd 0b0010011#7
  | .slti rd rs1 imm => encI imm rs1 0b010#3 rd 0b0010011#7
  | .sltiu rd rs1 imm => encI imm rs1 0b011#3 rd 0b0010011#7
  | .xori rd rs1 imm => encI imm rs1 0b100#3 rd 0b0010011#7
  | .ori rd rs1 imm => encI imm rs1 0b110#3 rd 0b0010011#7
  | .andi rd rs1 imm => encI imm rs1 0b111#3 rd 0b0010011#7
  | .slli rd rs1 shamt => encR 0b0000000#7 shamt rs1 0b001#3 rd 0b0010011#7
  | .srli rd rs1 shamt => encR 0b0000000#7 shamt rs1 0b101#3 rd 0b0010011#7
  | .srai rd rs1 shamt => encR 0b0100000#7 shamt rs1 0b101#3 rd 0b0010011#7
  | .add rd rs1 rs2 => encR 0b0000000#7 rs2 rs1 0b000#3 rd 0b0110011#7
  | .sub rd rs1 rs2 => encR 0b0100000#7 rs2 rs1 0b000#3 rd 0b0110011#7
  | .sll rd rs1 rs2 => encR 0b0000000#7 rs2 rs1 0b001#3 rd 0b0110011#7
  | .slt rd rs1 rs2 => encR 0b0000000#7 rs2 rs1 0b010#3 rd 0b0110011#7
  | .sltu rd rs1 rs2 => encR 0b0000000#7 rs2 rs1 0b011#3 rd 0b0110011#7
  | .xor rd rs1 rs2 => encR 0b0000000#7 rs2 rs1 0b100#3 rd 0b0110011#7
  | .srl rd rs1 rs2 => encR 0b0000000#7 rs2 rs1 0b101#3 rd 0b0110011#7
  | .sra rd rs1 rs2 => encR 0b0100000#7 rs2 rs1 0b101#3 rd 0b0110011#7
  | .or rd rs1 rs2 => encR 0b0000000#7 rs2 rs1 0b110#3 rd 0b0110011#7
  | .and rd rs1 rs2 => encR 0b0000000#7 rs2 rs1 0b111#3 rd 0b0110011#7
  | .fence fm pred succ rs1 rd => encI (fm ++ pred ++ succ) rs1 0b000#3 rd 0b0001111#7
  | .csrrw rd csr rs1 => encI csr rs1 0b001#3 rd 0b1110011#7
  | .csrrs rd csr rs1 => encI csr rs1 0b010#3 rd 0b1110011#7
  | .csrrc rd csr rs1 => encI csr rs1 0b011#3 rd 0b1110011#7
  | .csrrwi rd csr uimm => encI csr uimm 0b101#3 rd 0b1110011#7
  | .csrrsi rd csr uimm => encI csr uimm 0b110#3 rd 0b1110011#7
  | .csrrci rd csr uimm => encI csr uimm 0b111#3 rd 0b1110011#7
  | .ecall => encI 0 0 0b000#3 0 0b1110011#7
  | .ebreak => encI 1 0 0b000#3 0 0b1110011#7

/-- The four bytes of a word, the one at the lowest address first (rule R54). -/
def bytesOfWord (w : Word) : List Byte := [w.byte 0, w.byte 1, w.byte 2, w.byte 3]

/-- The bytes of an instruction as memory holds them. -/
def encodeBytes (i : Instr) : List Byte := bytesOfWord (encode i)

/-! ## The opcode table (spec/opcode_table.json) -/

/-- One row: a word w is this instruction exactly when w &&& mask = pattern (the table's `match`). -/
structure OpcodeRow where
  mnemonic : String
  pattern  : Word
  mask     : Word
deriving DecidableEq, Repr

/-- The row of an instruction. -/
def Instr.row : Instr → OpcodeRow
  | .lui _ _ => ⟨"LUI", 0x00000037#32, 0x0000007F#32⟩
  | .auipc _ _ => ⟨"AUIPC", 0x00000017#32, 0x0000007F#32⟩
  | .jal _ _ => ⟨"JAL", 0x0000006F#32, 0x0000007F#32⟩
  | .jalr _ _ _ => ⟨"JALR", 0x00000067#32, 0x0000007F#32⟩
  | .beq _ _ _ => ⟨"BEQ", 0x00000063#32, 0x0000707F#32⟩
  | .bne _ _ _ => ⟨"BNE", 0x00001063#32, 0x0000707F#32⟩
  | .blt _ _ _ => ⟨"BLT", 0x00004063#32, 0x0000707F#32⟩
  | .bge _ _ _ => ⟨"BGE", 0x00005063#32, 0x0000707F#32⟩
  | .bltu _ _ _ => ⟨"BLTU", 0x00006063#32, 0x0000707F#32⟩
  | .bgeu _ _ _ => ⟨"BGEU", 0x00007063#32, 0x0000707F#32⟩
  | .lb _ _ _ => ⟨"LB", 0x00000003#32, 0x0000707F#32⟩
  | .lh _ _ _ => ⟨"LH", 0x00001003#32, 0x0000707F#32⟩
  | .lw _ _ _ => ⟨"LW", 0x00002003#32, 0x0000707F#32⟩
  | .lbu _ _ _ => ⟨"LBU", 0x00004003#32, 0x0000707F#32⟩
  | .lhu _ _ _ => ⟨"LHU", 0x00005003#32, 0x0000707F#32⟩
  | .lwu _ _ _ => ⟨"LWU", 0x00006003#32, 0x0000707F#32⟩
  | .sb _ _ _ => ⟨"SB", 0x00000023#32, 0x0000707F#32⟩
  | .sh _ _ _ => ⟨"SH", 0x00001023#32, 0x0000707F#32⟩
  | .sw _ _ _ => ⟨"SW", 0x00002023#32, 0x0000707F#32⟩
  | .addi _ _ _ => ⟨"ADDI", 0x00000013#32, 0x0000707F#32⟩
  | .slti _ _ _ => ⟨"SLTI", 0x00002013#32, 0x0000707F#32⟩
  | .sltiu _ _ _ => ⟨"SLTIU", 0x00003013#32, 0x0000707F#32⟩
  | .xori _ _ _ => ⟨"XORI", 0x00004013#32, 0x0000707F#32⟩
  | .ori _ _ _ => ⟨"ORI", 0x00006013#32, 0x0000707F#32⟩
  | .andi _ _ _ => ⟨"ANDI", 0x00007013#32, 0x0000707F#32⟩
  | .slli _ _ _ => ⟨"SLLI", 0x00001013#32, 0x0000707F#32⟩
  | .srli _ _ _ => ⟨"SRLI", 0x00005013#32, 0xFE00707F#32⟩
  | .srai _ _ _ => ⟨"SRAI", 0x40005013#32, 0xFE00707F#32⟩
  | .add _ _ _ => ⟨"ADD", 0x00000033#32, 0xFE00707F#32⟩
  | .sub _ _ _ => ⟨"SUB", 0x40000033#32, 0xFE00707F#32⟩
  | .sll _ _ _ => ⟨"SLL", 0x00001033#32, 0x0000707F#32⟩
  | .slt _ _ _ => ⟨"SLT", 0x00002033#32, 0x0000707F#32⟩
  | .sltu _ _ _ => ⟨"SLTU", 0x00003033#32, 0x0000707F#32⟩
  | .xor _ _ _ => ⟨"XOR", 0x00004033#32, 0x0000707F#32⟩
  | .srl _ _ _ => ⟨"SRL", 0x00005033#32, 0xFE00707F#32⟩
  | .sra _ _ _ => ⟨"SRA", 0x40005033#32, 0xFE00707F#32⟩
  | .or _ _ _ => ⟨"OR", 0x00006033#32, 0x0000707F#32⟩
  | .and _ _ _ => ⟨"AND", 0x00007033#32, 0x0000707F#32⟩
  | .fence _ _ _ _ _ => ⟨"FENCE", 0x0000000F#32, 0x0000007F#32⟩
  | .csrrw _ _ _ => ⟨"CSRRW", 0x00001073#32, 0x0000707F#32⟩
  | .csrrs _ _ _ => ⟨"CSRRS", 0x00002073#32, 0x0000707F#32⟩
  | .csrrc _ _ _ => ⟨"CSRRC", 0x00003073#32, 0x0000707F#32⟩
  | .csrrwi _ _ _ => ⟨"CSRRWI", 0x00005073#32, 0x0000707F#32⟩
  | .csrrsi _ _ _ => ⟨"CSRRSI", 0x00006073#32, 0x0000707F#32⟩
  | .csrrci _ _ _ => ⟨"CSRRCI", 0x00007073#32, 0x0000707F#32⟩
  | .ecall => ⟨"ECALL", 0x00000073#32, 0x0010707F#32⟩
  | .ebreak => ⟨"EBREAK", 0x00100073#32, 0x0010707F#32⟩

/-- The instruction's name in the opcode table. -/
def Instr.mnemonic (i : Instr) : String := i.row.mnemonic

/-- The table's upper and jump rows, in its order. -/
def opcodeRowsUpper : List OpcodeRow :=
  [⟨"LUI", 0x00000037#32, 0x0000007F#32⟩,
   ⟨"AUIPC", 0x00000017#32, 0x0000007F#32⟩,
   ⟨"JAL", 0x0000006F#32, 0x0000007F#32⟩,
   ⟨"JALR", 0x00000067#32, 0x0000007F#32⟩]

/-- The table's branch rows, in its order. -/
def opcodeRowsBranch : List OpcodeRow :=
  [⟨"BEQ", 0x00000063#32, 0x0000707F#32⟩,
   ⟨"BNE", 0x00001063#32, 0x0000707F#32⟩,
   ⟨"BLT", 0x00004063#32, 0x0000707F#32⟩,
   ⟨"BGE", 0x00005063#32, 0x0000707F#32⟩,
   ⟨"BLTU", 0x00006063#32, 0x0000707F#32⟩,
   ⟨"BGEU", 0x00007063#32, 0x0000707F#32⟩]

/-- The table's load rows, in its order. -/
def opcodeRowsLoad : List OpcodeRow :=
  [⟨"LB", 0x00000003#32, 0x0000707F#32⟩,
   ⟨"LH", 0x00001003#32, 0x0000707F#32⟩,
   ⟨"LW", 0x00002003#32, 0x0000707F#32⟩,
   ⟨"LBU", 0x00004003#32, 0x0000707F#32⟩,
   ⟨"LHU", 0x00005003#32, 0x0000707F#32⟩,
   ⟨"LWU", 0x00006003#32, 0x0000707F#32⟩]

/-- The table's store rows, in its order. -/
def opcodeRowsStore : List OpcodeRow :=
  [⟨"SB", 0x00000023#32, 0x0000707F#32⟩,
   ⟨"SH", 0x00001023#32, 0x0000707F#32⟩,
   ⟨"SW", 0x00002023#32, 0x0000707F#32⟩]

/-- The table's register-immediate rows, in its order. -/
def opcodeRowsAluImm : List OpcodeRow :=
  [⟨"ADDI", 0x00000013#32, 0x0000707F#32⟩,
   ⟨"SLTI", 0x00002013#32, 0x0000707F#32⟩,
   ⟨"SLTIU", 0x00003013#32, 0x0000707F#32⟩,
   ⟨"XORI", 0x00004013#32, 0x0000707F#32⟩,
   ⟨"ORI", 0x00006013#32, 0x0000707F#32⟩,
   ⟨"ANDI", 0x00007013#32, 0x0000707F#32⟩,
   ⟨"SLLI", 0x00001013#32, 0x0000707F#32⟩,
   ⟨"SRLI", 0x00005013#32, 0xFE00707F#32⟩,
   ⟨"SRAI", 0x40005013#32, 0xFE00707F#32⟩]

/-- The table's register-register rows, in its order. -/
def opcodeRowsAluReg : List OpcodeRow :=
  [⟨"ADD", 0x00000033#32, 0xFE00707F#32⟩,
   ⟨"SUB", 0x40000033#32, 0xFE00707F#32⟩,
   ⟨"SLL", 0x00001033#32, 0x0000707F#32⟩,
   ⟨"SLT", 0x00002033#32, 0x0000707F#32⟩,
   ⟨"SLTU", 0x00003033#32, 0x0000707F#32⟩,
   ⟨"XOR", 0x00004033#32, 0x0000707F#32⟩,
   ⟨"SRL", 0x00005033#32, 0xFE00707F#32⟩,
   ⟨"SRA", 0x40005033#32, 0xFE00707F#32⟩,
   ⟨"OR", 0x00006033#32, 0x0000707F#32⟩,
   ⟨"AND", 0x00007033#32, 0x0000707F#32⟩]

/-- The table's stub rows, in its order. -/
def opcodeRowsSystem : List OpcodeRow :=
  [⟨"FENCE", 0x0000000F#32, 0x0000007F#32⟩,
   ⟨"CSRRW", 0x00001073#32, 0x0000707F#32⟩,
   ⟨"CSRRS", 0x00002073#32, 0x0000707F#32⟩,
   ⟨"CSRRC", 0x00003073#32, 0x0000707F#32⟩,
   ⟨"CSRRWI", 0x00005073#32, 0x0000707F#32⟩,
   ⟨"CSRRSI", 0x00006073#32, 0x0000707F#32⟩,
   ⟨"CSRRCI", 0x00007073#32, 0x0000707F#32⟩,
   ⟨"ECALL", 0x00000073#32, 0x0010707F#32⟩,
   ⟨"EBREAK", 0x00100073#32, 0x0010707F#32⟩]

/-- All 47 rows of spec/opcode_table.json. -/
def opcodeTable : List OpcodeRow :=
  opcodeRowsUpper ++ opcodeRowsBranch ++ opcodeRowsLoad ++ opcodeRowsStore
    ++ opcodeRowsAluImm ++ opcodeRowsAluReg ++ opcodeRowsSystem

/-! ## The host's probe -/

/-- The word the host's `nbits` and `w` stand for: the low bits, every bit above them 0. -/
def tableWord (nbits w : Nat) : Word := BitVec.ofNat 32 (w % 2 ^ nbits)

/-- The instruction the decoder reads from a table word, laid out in memory's byte order first. -/
def decodeTableWord (nbits w : Nat) : Option Instr :=
  match decodeBytes (bytesOfWord (tableWord nbits w)) with
  | .ok (i, _) => some i
  | .error _   => none

end Sys2Proof
end

