-- ==== Sys2Proof/Machine/Memory.lean ====
section
/-! DEFINITION. The bytes of the memory region: reading and writing one byte, and the little-endian bytes of a bus
access (spec/20_memory.md rules R52 to R54). Addresses are unbounded here; `admitted` (Machine/Ops.lean) decides
which accesses reach them. -/

namespace Sys2Proof.Machine

/-- The number of bytes of an access (rule R13: n in 1, 2, 4). -/
def Width.bytes : Width → Nat
  | .w8  => 1
  | .w16 => 2
  | .w32 => 4

/-- The number of bits of an access, as a fault report gives it (rule R253). -/
def Width.bits : Width → Nat
  | .w8  => 8
  | .w16 => 16
  | .w32 => 32

/-- What an address the list does not hold reads as. DESIGN CHOICE: the spec leaves MEM_INIT to the loader
(notes/assumptions/3.md). -/
def Memory.unlisted : Byte := 0#8

/-- The byte at an address. -/
def Memory.read : Memory → Nat → Byte
  | [], _ => Memory.unlisted
  | c :: m, a => if c.1 = a then c.2 else Memory.read m a

/-- The memory with one byte set. The list stays in canonical form: the byte an unlisted address reads as is not
listed, and addresses rise. -/
def Memory.write : Memory → Nat → Byte → Memory
  | [], a, v => if v = Memory.unlisted then [] else [(a, v)]
  | c :: m, a, v =>
    if c.1 < a then c :: Memory.write m a v
    else
      let rest := if c.1 = a then m else c :: m
      if v = Memory.unlisted then rest else (a, v) :: rest

/-- The canonical form: addresses strictly rise, and no entry equals what an unlisted address reads as. -/
abbrev Memory.wf (m : Memory) : Prop :=
  m.Pairwise (fun c d => c.1 < d.1) ∧ ∀ c ∈ m, c.2 ≠ Memory.unlisted

/-- The value of the bytes at a, a+1, ..., little-endian, zero-extended to 32 bits (rule R52). -/
def Memory.readLE (m : Memory) (a : Nat) : Width → Word
  | .w8  => (m.read a).setWidth 32
  | .w16 => (m.read (a + 1) ++ m.read a).setWidth 32
  | .w32 => m.read (a + 3) ++ m.read (a + 2) ++ m.read (a + 1) ++ m.read a

/-- The memory with the low bytes of `v` at a, a+1, ..., little-endian (rule R53). -/
def Memory.writeLE (m : Memory) (a : Nat) (v : Word) : Width → Memory
  | .w8  => m.write a (v.byte 0)
  | .w16 => (m.write a (v.byte 0)).write (a + 1) (v.byte 1)
  | .w32 =>
    (((m.write a (v.byte 0)).write (a + 1) (v.byte 1)).write (a + 2) (v.byte 2)).write (a + 3) (v.byte 3)

end Sys2Proof.Machine
end

