-- ==== Sys2Proof/Machine/Operands.lean ====
section
/-! DEFINITION. The operand forms: the five immediates as 32-bit values (spec/30_encoding.md rules R84 to R90) and
the load extensions (spec/40_datapath.md rule R128). The block has no other operand form: a register, an immediate, or
base register plus 12-bit signed offset (spec/43_load_store.md rule R189). -/

namespace Sys2Proof.Machine

/-- `immI` of a 12-bit immediate: sign-extended, SLTIU's and the logical ones' too (R84, R90; D9). -/
def immI (imm : BitVec 12) : Word := imm.signExtend 32

/-- `immS` of a 12-bit immediate (R85). -/
def immS (imm : BitVec 12) : Word := imm.signExtend 32

/-- `immB` of a 13-bit branch offset (R86). -/
def immB (off : BitVec 13) : Word := off.signExtend 32

/-- `immU`: the 20 bits over twelve zeros (R87). -/
def immU (imm : BitVec 20) : Word := imm ++ 0#12

/-- `immJ` of a 21-bit jump offset (R88). -/
def immJ (off : BitVec 21) : Word := off.signExtend 32

/-- Whether a load sign-extends or zero-extends what it reads (R128). -/
inductive LoadExt where
  | signed | unsigned
deriving DecidableEq, Repr

/-- The extended load value (R128), of a bus value whose bits above the width are 0; a word is unchanged by both. -/
def extendLoad (w : Width) (e : LoadExt) (v : Word) : Word :=
  match w, e with
  | .w8,  .signed   => (v.setWidth 8).signExtend 32
  | .w16, .signed   => (v.setWidth 16).signExtend 32
  | .w8,  .unsigned => (v.setWidth 8).setWidth 32
  | .w16, .unsigned => (v.setWidth 16).setWidth 32
  | .w32, _         => v

end Sys2Proof.Machine
end

