-- ==== Sys2Proof/Machine/Ops.lean ====
section
/-! DEFINITION. The shared operations every meaning is written over: the register ports (spec/10_state.md section 1),
the bus (spec/20_memory.md section 1), raising a fault (spec/60_exceptions.md), the PC mux, the writeback mux and the
commit (spec/40_datapath.md sections 3 to 6), and the fetch and decode phases of a step. -/

namespace Sys2Proof.Machine

/-- The three outcomes of a step of this machine. -/
abbrev Result := Host.Outcome State Fault Refusal

/-! ## Register ports -/

/-- `read(i)`: index 0 reads 0, index i reads X[i] (rule R21). -/
def State.readReg (s : State) (r : Reg) : Word :=
  if r = 0#5 then 0#32 else s.regs[r.toNat]

/-- `write(i, v)`: a write to index 0 is discarded (rule R22). -/
def State.writeReg (s : State) (r : Reg) (v : Word) : State :=
  if r = 0#5 then s else { s with regs := s.regs.set r.toNat v }

/-- `pc <- target` (rule R14). -/
def State.setPc (s : State) (target : Word) : State := { s with pc := target }

/-! ## Faults -/

/-- Raising a fault is the block's only "exception entry" (rules R252, R257): it saves nothing, changes no register,
byte or mode and transfers control nowhere; the step ends and reports the condition. There is no return from one,
since nothing was entered (rule R258): the host's next step runs from the state it finds (rule R266). -/
def raise (f : Fault) : Result := .fault f

/-! ## The bus -/

/-- `admitted(a, n)`: every byte of the access lies in the region, on unbounded integers, and with ALIGN_CHECK the
address is a multiple of n (rules R51, R58). -/
def admitted (c : Config) (a : Word) (n : Nat) : Bool :=
  decide (c.memBase.toNat ≤ a.toNat) && decide (a.toNat + n ≤ c.memBase.toNat + c.memSize)
    && (!c.alignCheck || decide (a.toNat % n = 0))

/-- Bus load port: `MemRead(a, n)`, or MemoryFault (rules R36, R52, R251). -/
def busLoad (s : State) (k : AccessKind) (a : Word) (w : Width) : Except Fault Word :=
  if admitted s.cfg a w.bytes then .ok (s.mem.readLE a.toNat w)
  else .error (.memoryFault k a w)

/-- Bus store port: `MemWrite(a, n, v)`, or MemoryFault with no byte written (rules R37, R53, R251). -/
def busStore (s : State) (a : Word) (w : Width) (v : Word) : Except Fault State :=
  if admitted s.cfg a w.bytes then .ok { s with mem := s.mem.writeLE a.toNat v w }
  else .error (.memoryFault .store a w)

/-- The load-store address adder: base register plus sign-extended offset, modulo 2^32 (rule R127). -/
def effAddr (s : State) (rs1 : Reg) (offset : Word) : Word := s.readReg rs1 + offset

/-! ## PC mux, writeback mux, commit -/

/-- The four sources of the next PC (rule R126). -/
inductive PcSelect where
  | seq
  | br   (immB : Word)
  | jal  (immJ : Word)
  | jalr (base immI : Word)
deriving DecidableEq, Repr

/-- The PC mux: the PC after the step (rule R126), modulo 2^32 (R28). -/
def pcMux (pc : Word) : PcSelect → Word
  | .seq            => pc + 4#32
  | .br immB        => pc + immB
  | .jal immJ       => pc + immJ
  | .jalr base immI => (base + immI) &&& 0xFFFFFFFE#32

/-- The five sources of the value written to rd (rule R129). -/
inductive WbSelect where
  | alu   (result : Word)
  | imm   (immU : Word)
  | pcImm (immU : Word)
  | link
  | load  (value : Word)
deriving DecidableEq, Repr

/-- The writeback mux: `wb` (rule R129). -/
def wbMux (pc : Word) : WbSelect → Word
  | .alu result  => result
  | .imm immU    => immU
  | .pcImm immU  => pc + immU
  | .link        => pc + 4#32
  | .load value  => value

/-- Commit with the write enable on: x[rd] <- wb, then pc <- next_pc (rule R130). Both muxes read the PC of the
instruction itself. -/
def commitReg (s : State) (rd : Reg) (wb : WbSelect) (next : PcSelect) : Result :=
  .next ((s.writeReg rd (wbMux s.pc wb)).setPc (pcMux s.pc next))

/-- Commit with the write enable off: pc <- next_pc (rules R129, R130). -/
def commitNone (s : State) (next : PcSelect) : Result :=
  .next (s.setPc (pcMux s.pc next))

/-! ## The shapes the instruction families share -/

/-- Register-register ALU instruction (44_alu.md section 2). -/
def aluRegReg (op : AluOp) (rd rs1 rs2 : Reg) (s : State) : Result :=
  commitReg s rd (.alu (alu op (s.readReg rs1) (s.readReg rs2))) .seq

/-- Register-immediate ALU instruction (44_alu.md section 1). -/
def aluRegImm (op : AluOp) (rd rs1 : Reg) (b : Word) (s : State) : Result :=
  commitReg s rd (.alu (alu op (s.readReg rs1) b)) .seq

/-- Conditional branch (42_control_transfer.md). -/
def branchIf (c : BranchCond) (rs1 rs2 : Reg) (off : BitVec 13) (s : State) : Result :=
  commitNone s (if taken c (s.readReg rs1) (s.readReg rs2) then .br (immB off) else .seq)

/-- Load (43_load_store.md): a refused access writes no register. -/
def loadWith (w : Width) (e : LoadExt) (rd rs1 : Reg) (imm : BitVec 12) (s : State) : Result :=
  match busLoad s .load (effAddr s rs1 (immI imm)) w with
  | .ok v    => commitReg s rd (.load (extendLoad w e v)) .seq
  | .error f => raise f

/-- Store (43_load_store.md): a refused access writes no byte. -/
def storeWith (w : Width) (rs2 rs1 : Reg) (imm : BitVec 12) (s : State) : Result :=
  match busStore s (effAddr s rs1 (immS imm)) w (s.readReg rs2) with
  | .ok t    => commitNone t .seq
  | .error f => raise f

/-- Accepted stub: the PC advances and nothing else happens (45_system.md). -/
def stub (s : State) : Result := commitNone s .seq

/-! ## Fetch and decode phases -/

/-- `Fetch(pc)`: the 32-bit bus load at the PC (rule R121). -/
def fetch (s : State) : Except Fault Word := busLoad s .fetch s.pc .w32

/-- The decode phase: the instruction of a word, or IllegalInstruction with the word (rules R122, R250). -/
def decodePhase (w : Word) : Except Fault Instr :=
  match decode w with
  | .ok i    => .ok i
  | .error _ => .error (.illegalInstruction w)

/-- Fetch, then decode; the first condition met is the one reported (rules R120, R254). -/
def fetchDecode (s : State) : Except Fault Instr :=
  match fetch s with
  | .ok w    => decodePhase w
  | .error f => .error f

/-- The state with a word's four bytes stored at the PC, through the bus; unchanged where the bus refuses them. -/
def placeAtPc (s : State) (w : Word) : State :=
  match busStore s s.pc .w32 w with
  | .ok t    => t
  | .error _ => s

end Sys2Proof.Machine
end

