-- ==== Sys2Proof/Machine/AluImm.lean ====
section
/-! DEFINITION. The register-immediate ALU instructions (spec/44_alu.md section 1). -/

namespace Sys2Proof.Machine

/-- ADDI (R200): `x[rd] <- x[rs1] + immI`. -/
def execAddi (rd rs1 : Reg) (imm : BitVec 12) (s : State) : Result :=
  aluRegImm .add rd rs1 (immI imm) s

/-- SLTI (R201): `x[rd] <- (x[rs1] <s immI) ? 1 : 0`. -/
def execSlti (rd rs1 : Reg) (imm : BitVec 12) (s : State) : Result :=
  aluRegImm .slt rd rs1 (immI imm) s

/-- SLTIU (R202): `x[rd] <- (x[rs1] <u immI) ? 1 : 0, immI sign-extended`. -/
def execSltiu (rd rs1 : Reg) (imm : BitVec 12) (s : State) : Result :=
  aluRegImm .sltu rd rs1 (immI imm) s

/-- XORI (R203): `x[rd] <- x[rs1] ^ immI`. -/
def execXori (rd rs1 : Reg) (imm : BitVec 12) (s : State) : Result :=
  aluRegImm .xor rd rs1 (immI imm) s

/-- ORI (R204): `x[rd] <- x[rs1] | immI`. -/
def execOri (rd rs1 : Reg) (imm : BitVec 12) (s : State) : Result :=
  aluRegImm .or rd rs1 (immI imm) s

/-- ANDI (R205): `x[rd] <- x[rs1] & immI`. -/
def execAndi (rd rs1 : Reg) (imm : BitVec 12) (s : State) : Result :=
  aluRegImm .and rd rs1 (immI imm) s

/-- SLLI (R206): `x[rd] <- x[rs1] << shamt`. -/
def execSlli (rd rs1 : Reg) (shamt : BitVec 5) (s : State) : Result :=
  aluRegImm .sll rd rs1 (shamt.setWidth 32) s

/-- SRLI (R207): `x[rd] <- x[rs1] >>u shamt`. -/
def execSrli (rd rs1 : Reg) (shamt : BitVec 5) (s : State) : Result :=
  aluRegImm .srl rd rs1 (shamt.setWidth 32) s

/-- SRAI (R208): `x[rd] <- x[rs1] >>s shamt`. -/
def execSrai (rd rs1 : Reg) (shamt : BitVec 5) (s : State) : Result :=
  aluRegImm .sra rd rs1 (shamt.setWidth 32) s

end Sys2Proof.Machine
end

