-- ==== Sys2Proof/Machine/AluReg.lean ====
section
/-! DEFINITION. The register-register ALU instructions (spec/44_alu.md section 2). -/

namespace Sys2Proof.Machine

/-- ADD (R210): `x[rd] <- x[rs1] + x[rs2]`. -/
def execAdd (rd rs1 rs2 : Reg) (s : State) : Result :=
  aluRegReg .add rd rs1 rs2 s

/-- SUB (R211): `x[rd] <- x[rs1] - x[rs2]`. -/
def execSub (rd rs1 rs2 : Reg) (s : State) : Result :=
  aluRegReg .sub rd rs1 rs2 s

/-- SLL (R212): `x[rd] <- x[rs1] << x[rs2][4:0]`. -/
def execSll (rd rs1 rs2 : Reg) (s : State) : Result :=
  aluRegReg .sll rd rs1 rs2 s

/-- SLT (R213): `x[rd] <- (x[rs1] <s x[rs2]) ? 1 : 0`. -/
def execSlt (rd rs1 rs2 : Reg) (s : State) : Result :=
  aluRegReg .slt rd rs1 rs2 s

/-- SLTU (R214): `x[rd] <- (x[rs1] <u x[rs2]) ? 1 : 0`. -/
def execSltu (rd rs1 rs2 : Reg) (s : State) : Result :=
  aluRegReg .sltu rd rs1 rs2 s

/-- XOR (R215): `x[rd] <- x[rs1] ^ x[rs2]`. -/
def execXor (rd rs1 rs2 : Reg) (s : State) : Result :=
  aluRegReg .xor rd rs1 rs2 s

/-- SRL (R216): `x[rd] <- x[rs1] >>u x[rs2][4:0]`. -/
def execSrl (rd rs1 rs2 : Reg) (s : State) : Result :=
  aluRegReg .srl rd rs1 rs2 s

/-- SRA (R217): `x[rd] <- x[rs1] >>s x[rs2][4:0]`. -/
def execSra (rd rs1 rs2 : Reg) (s : State) : Result :=
  aluRegReg .sra rd rs1 rs2 s

/-- OR (R218): `x[rd] <- x[rs1] | x[rs2]`. -/
def execOr (rd rs1 rs2 : Reg) (s : State) : Result :=
  aluRegReg .or rd rs1 rs2 s

/-- AND (R219): `x[rd] <- x[rs1] & x[rs2]`. -/
def execAnd (rd rs1 rs2 : Reg) (s : State) : Result :=
  aluRegReg .and rd rs1 rs2 s

end Sys2Proof.Machine
end

