-- ==== Sys2Proof/Machine/Control.lean ====
section
/-! DEFINITION. The control transfers (spec/42_control_transfer.md). No target is checked here: the next fetch does
(rule R168). -/

namespace Sys2Proof.Machine

/-- JAL (R160): `x[rd] <- pc + 4`, `pc <- pc + immJ`. The target is not checked (R168). -/
def execJal (rd : Reg) (off : BitVec 21) (s : State) : Result :=
  commitReg s rd .link (.jal (immJ off))

/-- JALR (R161): `pc <- (x[rs1] + immI) & 0xFFFFFFFE` with the old x[rs1], `x[rd] <- pc + 4`. -/
def execJalr (rd rs1 : Reg) (imm : BitVec 12) (s : State) : Result :=
  commitReg s rd .link (.jalr (s.readReg rs1) (immI imm))

/-- BEQ (R162): `if x[rs1] == x[rs2] then pc <- pc + immB else pc <- pc + 4`. -/
def execBeq (rs1 rs2 : Reg) (off : BitVec 13) (s : State) : Result :=
  branchIf .eq rs1 rs2 off s

/-- BNE (R163): `if x[rs1] != x[rs2] then pc <- pc + immB else pc <- pc + 4`. -/
def execBne (rs1 rs2 : Reg) (off : BitVec 13) (s : State) : Result :=
  branchIf .ne rs1 rs2 off s

/-- BLT (R164): `if x[rs1] <s x[rs2] then pc <- pc + immB else pc <- pc + 4`. -/
def execBlt (rs1 rs2 : Reg) (off : BitVec 13) (s : State) : Result :=
  branchIf .lt rs1 rs2 off s

/-- BGE (R165): `if not (x[rs1] <s x[rs2]) then pc <- pc + immB else pc <- pc + 4`. -/
def execBge (rs1 rs2 : Reg) (off : BitVec 13) (s : State) : Result :=
  branchIf .ge rs1 rs2 off s

/-- BLTU (R166): `if x[rs1] <u x[rs2] then pc <- pc + immB else pc <- pc + 4`. -/
def execBltu (rs1 rs2 : Reg) (off : BitVec 13) (s : State) : Result :=
  branchIf .ltu rs1 rs2 off s

/-- BGEU (R167): `if not (x[rs1] <u x[rs2]) then pc <- pc + immB else pc <- pc + 4`. -/
def execBgeu (rs1 rs2 : Reg) (off : BitVec 13) (s : State) : Result :=
  branchIf .geu rs1 rs2 off s

end Sys2Proof.Machine
end

