-- ==== Sys2Proof/Machine/LoadStore.lean ====
section
/-! DEFINITION. The loads and stores (spec/43_load_store.md). -/

namespace Sys2Proof.Machine

/-- LB (R180): `x[rd] <- sext_8(MemRead(ea, 1))` at ea = x[rs1] + immI. -/
def execLb (rd rs1 : Reg) (imm : BitVec 12) (s : State) : Result :=
  loadWith .w8 .signed rd rs1 imm s

/-- LH (R181): `x[rd] <- sext_16(MemRead(ea, 2))` at ea = x[rs1] + immI. -/
def execLh (rd rs1 : Reg) (imm : BitVec 12) (s : State) : Result :=
  loadWith .w16 .signed rd rs1 imm s

/-- LW (R182): `x[rd] <- MemRead(ea, 4)` at ea = x[rs1] + immI. -/
def execLw (rd rs1 : Reg) (imm : BitVec 12) (s : State) : Result :=
  loadWith .w32 .signed rd rs1 imm s

/-- LBU (R183): `x[rd] <- zext_8(MemRead(ea, 1))` at ea = x[rs1] + immI. -/
def execLbu (rd rs1 : Reg) (imm : BitVec 12) (s : State) : Result :=
  loadWith .w8 .unsigned rd rs1 imm s

/-- LHU (R184): `x[rd] <- zext_16(MemRead(ea, 2))` at ea = x[rs1] + immI. -/
def execLhu (rd rs1 : Reg) (imm : BitVec 12) (s : State) : Result :=
  loadWith .w16 .unsigned rd rs1 imm s

/-- LWU (R185): `x[rd] <- MemRead(ea, 4)` at ea = x[rs1] + immI. -/
def execLwu (rd rs1 : Reg) (imm : BitVec 12) (s : State) : Result :=
  loadWith .w32 .unsigned rd rs1 imm s

/-- SB (R186): `MemWrite(ea, 1, x[rs2])` at ea = x[rs1] + immS. -/
def execSb (rs2 rs1 : Reg) (imm : BitVec 12) (s : State) : Result :=
  storeWith .w8 rs2 rs1 imm s

/-- SH (R187): `MemWrite(ea, 2, x[rs2])` at ea = x[rs1] + immS. -/
def execSh (rs2 rs1 : Reg) (imm : BitVec 12) (s : State) : Result :=
  storeWith .w16 rs2 rs1 imm s

/-- SW (R188): `MemWrite(ea, 4, x[rs2])` at ea = x[rs1] + immS. -/
def execSw (rs2 rs1 : Reg) (imm : BitVec 12) (s : State) : Result :=
  storeWith .w32 rs2 rs1 imm s

end Sys2Proof.Machine
end

