-- ==== Sys2Proof/Machine/System.lean ====
section
/-! DEFINITION. FENCE, the CSR family, ECALL and EBREAK (spec/45_system.md): accepted stubs whose only effect is
`pc <- pc + 4`. Their usual RISC-V meanings are absent from this block, as the spec says of each. -/

namespace Sys2Proof.Machine

/-- FENCE (R230): nothing is left to order, so the PC advances and no more. -/
def execFence (_fm _pred _succ : BitVec 4) (_rs1 _rd : Reg) (s : State) : Result :=
  stub s

/-- CSRRW (R231): rd is not written; no CSR is read or written, none exists (R31). -/
def execCsrrw (_rd : Reg) (_csr : BitVec 12) (_rs1 : Reg) (s : State) : Result :=
  stub s

/-- CSRRS (R232): rd is not written; no CSR is read or written, none exists (R31). -/
def execCsrrs (_rd : Reg) (_csr : BitVec 12) (_rs1 : Reg) (s : State) : Result :=
  stub s

/-- CSRRC (R233): rd is not written; no CSR is read or written, none exists (R31). -/
def execCsrrc (_rd : Reg) (_csr : BitVec 12) (_rs1 : Reg) (s : State) : Result :=
  stub s

/-- CSRRWI (R234): rd is not written; no CSR is read or written, none exists (R31). -/
def execCsrrwi (_rd : Reg) (_csr : BitVec 12) (_uimm : BitVec 5) (s : State) : Result :=
  stub s

/-- CSRRSI (R235): rd is not written; no CSR is read or written, none exists (R31). -/
def execCsrrsi (_rd : Reg) (_csr : BitVec 12) (_uimm : BitVec 5) (s : State) : Result :=
  stub s

/-- CSRRCI (R236): rd is not written; no CSR is read or written, none exists (R31). -/
def execCsrrci (_rd : Reg) (_csr : BitVec 12) (_uimm : BitVec 5) (s : State) : Result :=
  stub s

/-- ECALL (R237): no trap, no halt, no register written. -/
def execEcall (s : State) : Result :=
  stub s

/-- EBREAK (R238): no breakpoint exception, no halt, no debug entry. -/
def execEbreak (s : State) : Result :=
  stub s

end Sys2Proof.Machine
end

