-- ==== Sys2Proof/Machine/Upper.lean ====
section
/-! DEFINITION. The U-type instructions (spec/41_upper_immediate.md). -/

namespace Sys2Proof.Machine

/-- LUI (R150): `x[rd] <- immU`. -/
def execLui (rd : Reg) (imm : BitVec 20) (s : State) : Result :=
  commitReg s rd (.imm (immU imm)) .seq

/-- AUIPC (R151): `x[rd] <- pc + immU`, pc being this instruction's own address. -/
def execAuipc (rd : Reg) (imm : BitVec 20) (s : State) : Result :=
  commitReg s rd (.pcImm (immU imm)) .seq

end Sys2Proof.Machine
end

