-- ==== Sys2Proof/Machine/Step.lean ====
section
/-! DEFINITION. One step (spec/40_datapath.md section 1): fetch, decode, execute, as one atomic transition; the
execute port; the status a step returns; and the host's probe. -/

namespace Sys2Proof.Machine

/-- `step()`: one instruction from start to end (rule R120). -/
def step (s : State) : Host.Outcome State Fault Refusal :=
  match fetchDecode s with
  | .ok i    => exec i s
  | .error f => raise f

/-- `execute(word)`: the step without the fetch (rule R131). -/
def execute (w : Word) (s : State) : Host.Outcome State Fault Refusal :=
  match decodePhase w with
  | .ok i    => exec i s
  | .error f => raise f

/-- `s` with the instruction's bits (every bit above `nbits` 0) stored where the next step fetches. -/
def State.withFetchWord (s : State) (nbits w : Nat) : State :=
  placeAtPc s (tableWord nbits w)

end Sys2Proof.Machine
end

