-- ==== Sys2Proof/Machine/Status.lean ====
section
/-! DEFINITION. What a call of the block returns to its host, and what the host may do between calls
(spec/10_state.md rules R38 to R40, 60_exceptions.md rules R252, R253, R266). No step uses this file. -/

namespace Sys2Proof.Machine

/-- `Status`: Ok or one of the two fault reports (rule R253). -/
inductive Status where
  | ok
  | fault (report : Fault)
deriving DecidableEq, Repr

/-- The status code (rule R253). -/
def Status.code : Status → Nat
  | .ok                          => 0
  | .fault (.illegalInstruction _) => 1
  | .fault (.memoryFault _ _ _)    => 2

/-- The code of the access kind in a report (rule R253). -/
def AccessKind.code : AccessKind → Nat
  | .fetch => 0
  | .load  => 1
  | .store => 2

/-- The state after a call and the status it returns: a call that faults leaves the state as it was (rule R252). A
refusal, which no instruction of this model answers, has no status. -/
def settled (s : State) : Result → Option (State × Status)
  | .next t    => some (t, .ok)
  | .fault f   => some (s, .fault f)
  | .refused _ => none

/-- `step() -> Status` with the state it leaves (rules R38, R39). -/
def stepCall (s : State) : Option (State × Status) := settled s (step s)

/-- `execute(word) -> Status` with the state it leaves (rules R38, R131). -/
def executeCall (w : Word) (s : State) : Option (State × Status) := settled s (execute w s)

/-- A host's action between steps (rule R40). -/
inductive HostAction where
  | writePc  (v : Word)
  | writeReg (r : Reg) (v : Word)
  | store    (a : Word) (w : Width) (v : Word)
deriving DecidableEq, Repr

/-- The state after a host's action: a write of x0 is discarded, and memory is reached through the bus, which may
refuse (rule R40). Reads of the PC, the registers and memory are `State.pc`, `State.readReg` and `busLoad`. -/
def hostAct (s : State) : HostAction → Except Fault State
  | .writePc v    => .ok (s.setPc v)
  | .writeReg r v => .ok (s.writeReg r v)
  | .store a w v  => busStore s a w v

end Sys2Proof.Machine
end

