-- ==== Sys2Proof/Machine/Observation.lean ====
section
/-! DEFINITION. A model's observation of the block (spec/10_state.md rule R34, 92_eei_decisions.md D13): the state with
the record of every fault a call reported, which nothing clears. The record stands outside State, since the block keeps
no fault state: no step reads it (notes/assumptions/25.md). -/

namespace Sys2Proof.Machine

/-- What is observed: the state, and the reports so far, oldest first. -/
structure Observed where
  state   : State
  reports : List Fault
deriving DecidableEq, Repr

/-- The observation of a state before any call: no report. -/
def Observed.start (s : State) : Observed := ⟨s, []⟩

/-- The report a status carries (rule R253). -/
def Status.reports : Status → List Fault
  | .ok      => []
  | .fault f => [f]

/-- What the host does next (rules R38, R40, R280): a call of `step` or of `execute`, an access of its own, or the
construction of the block again over the memory as it stands. -/
inductive HostEvent where
  | step
  | execute (w : Word)
  | act (h : HostAction)
  | restart
deriving DecidableEq, Repr

/-- The observation after a call that returned this state and status: the report, if any, joins the record. -/
def Observed.afterCall (o : Observed) (returned : State × Status) : Observed :=
  ⟨returned.1, o.reports ++ returned.2.reports⟩

/-- The observation after the host's own access. The bus's refusal of one is an answer to the host and no report of a
call, so it changes nothing. -/
def Observed.afterAct (o : Observed) (h : HostAction) : Observed :=
  match hostAct o.state h with
  | .ok t    => ⟨t, o.reports⟩
  | .error _ => o

/-- The observation after one event; `none` only where a call is refused, which none is. -/
def Observed.event (o : Observed) : HostEvent → Option Observed
  | .step      => (stepCall o.state).map o.afterCall
  | .execute w => (executeCall w o.state).map o.afterCall
  | .act h     => some (o.afterAct h)
  | .restart   => some ⟨State.construct o.state.cfg o.state.mem, o.reports⟩

/-- The observation after a run of events, the first of the list first. -/
def Observed.run (o : Observed) : List HostEvent → Option Observed
  | []      => some o
  | e :: es => (o.event e).bind fun next => next.run es

end Sys2Proof.Machine
end

