-- ==== Sys2Proof/Safety.lean ====
section
/-! DEFINITION. What a sound state is, and what a safe step is, in the terms the claims use. -/

namespace Sys2Proof.Machine

/-- The byte address lies in the memory region (spec/20_memory.md rule R50). -/
abbrev inRegion (c : Config) (a : Nat) : Prop :=
  c.memBase.toNat ≤ a ∧ a < c.memBase.toNat + c.memSize

/-- Every listed byte lies in the region. -/
abbrev Memory.within (c : Config) (m : Memory) : Prop :=
  ∀ cell ∈ m, inRegion c cell.1

/-- A sound state: the parameters meet rule R8, the memory is canonical and lists bytes of the region alone (R50), and
the storage behind x0 holds 0 (R21, R22, R35). Every step keeps it; no run from a construction leaves it. -/
structure State.Sound (s : State) : Prop where
  config    : s.cfg.valid
  canonical : s.mem.wf
  region    : Memory.within s.cfg s.mem
  zero      : s.regs[0] = 0#32

/-- The step of this state completes: status Ok (rule R39). -/
def State.completes (s : State) : Prop := ∃ t, step s = .next t

/-- Every one of the next `k` steps completes. -/
def State.runsFor (s : State) : Nat → Prop
  | 0     => True
  | k + 1 => ∃ t, step s = .next t ∧ t.runsFor k

end Sys2Proof.Machine
end

