-- ==== Sys2Proof/Certificates/Slice0/Obligations.lean ====
section
/-! DEFINITION. The statements about the model, for the provers. Each formalises rules of spec/; its docstring names
them. The vocabulary comes first (namespace `Claims`): it is written from the rules, over the model's read of one
register and of one byte, and calls the model's own operations nowhere else. Where a rule rests on a choice the spec
marks as its own ([decision: ... D<n>] or [derived: ...]), the docstring names that mark.

A statement about an instruction holds for every register operand, x0 among them: `RegResult` says that x0 reads 0
whatever is written to it. -/

namespace Sys2Proof.Claims

open Sys2Proof.Machine

/-! ## Vocabulary -/

/-- Rule R51's formula (D5, D6): every byte of the access in the region, on unbounded integers; with ALIGN_CHECK
the address a multiple of n. -/
def Admits (c : Config) (a : Word) (n : Nat) : Prop :=
  c.memBase.toNat ≤ a.toNat ∧ a.toNat + n ≤ c.memBase.toNat + c.memSize
    ∧ (c.alignCheck = true → a.toNat % n = 0)

/-- Two bytes at `a`, `a + 1`, the lower address holding the low byte (rule R52). -/
def half (s : State) (a : Nat) : BitVec 16 := s.mem.read (a + 1) ++ s.mem.read a

/-- Four bytes at `a` .. `a + 3`, the lowest address holding the low byte (rule R52). -/
def word (s : State) (a : Nat) : Word :=
  s.mem.read (a + 3) ++ s.mem.read (a + 2) ++ s.mem.read (a + 1) ++ s.mem.read a

/-- From `s`, the state `t` has `v` in `rd` (0 if `rd` is x0) and `next` in the PC, and nothing else changed: no other
register, no byte, no parameter. -/
structure RegResult (s t : State) (rd : Reg) (v next : Word) : Prop where
  dest   : t.readReg rd = if rd = 0#5 then 0#32 else v
  others : ∀ r, r ≠ rd → t.readReg r = s.readReg r
  memory : ∀ a, t.mem.read a = s.mem.read a
  params : t.cfg = s.cfg
  pc     : t.pc = next

/-- From `s`, the state `t` has `next` in the PC, and nothing else changed. -/
structure PcResult (s t : State) (next : Word) : Prop where
  regs   : ∀ r, t.readReg r = s.readReg r
  memory : ∀ a, t.mem.read a = s.mem.read a
  params : t.cfg = s.cfg
  pc     : t.pc = next

/-- From `s`, the state `t` has the low `n` bytes of `v` at `a`, `a + 1`, ..., the PC four further, and nothing else
changed: no register, no other byte, no parameter. -/
structure StoreResult (s t : State) (a : Word) (n : Nat) (v : Word) : Prop where
  bytes  : ∀ k, k < n → t.mem.read (a.toNat + k) = v.extractLsb' (8 * k) 8
  others : ∀ b, (b < a.toNat ∨ a.toNat + n ≤ b) → t.mem.read b = s.mem.read b
  regs   : ∀ r, t.readReg r = s.readReg r
  params : t.cfg = s.cfg
  pc     : t.pc = s.pc + 4#32

/-- In every state the instruction completes, with `value s` in `rd` and `next s` in the PC. -/
def Computes (i : Instr) (rd : Reg) (value next : State → Word) : Prop :=
  ∀ s, ∃ t, exec i s = .next t ∧ RegResult s t rd (value s) (next s)

/-- In every state the instruction completes, with `next s` in the PC and nothing else changed. -/
def OnlyMoves (i : Instr) (next : State → Word) : Prop :=
  ∀ s, ∃ t, exec i s = .next t ∧ PcResult s t (next s)

/-- The instruction loads from `ea s`: admitted, it completes with `value s` in `rd` and the PC four further;
refused, the step reports MemoryFault(Load, ea, width). -/
def Loads (i : Instr) (rd : Reg) (ea : State → Word) (w : Width) (n : Nat) (value : State → Word) : Prop :=
  ∀ s,
    (Admits s.cfg (ea s) n → ∃ t, exec i s = .next t ∧ RegResult s t rd (value s) (s.pc + 4#32)) ∧
    (¬ Admits s.cfg (ea s) n → exec i s = .fault (.memoryFault .load (ea s) w))

/-- The instruction stores the low `n` bytes of `value s` at `ea s`: admitted, it completes and nothing else changes;
refused, the step reports MemoryFault(Store, ea, width). The memory is in canonical form, which every step keeps
(`Obligations.StepKeepsStatesSound`). -/
def Stores (i : Instr) (ea : State → Word) (w : Width) (n : Nat) (value : State → Word) : Prop :=
  ∀ s, s.mem.wf →
    (Admits s.cfg (ea s) n → ∃ t, exec i s = .next t ∧ StoreResult s t (ea s) n (value s)) ∧
    (¬ Admits s.cfg (ea s) n → exec i s = .fault (.memoryFault .store (ea s) w))

/-- Every word with these bits under the mask is the instruction `f w` (the rule's match and mask). -/
def Encodes (pattern mask : Word) (f : Word → Instr) : Prop :=
  ∀ w, w &&& mask = pattern → decode w = .ok (f w)

/-- `c ? 1 : 0`. -/
def bit (p : Prop) [Decidable p] : Word := if p then 1#32 else 0#32

/-- The address of a load or store: x[rs1] + sext_12(imm), modulo 2^32 (rule R127). -/
def address (rs1 : Reg) (imm : BitVec 12) (s : State) : Word := s.readReg rs1 + imm.signExtend 32

/-- The S-immediate's 12 bits in a word (rule R85). -/
def storeImm (w : Word) : BitVec 12 := w.extractLsb' 25 7 ++ w.extractLsb' 7 5

/-- The branch offset in a word (rule R86). -/
def branchOff (w : Word) : BitVec 13 :=
  w.extractLsb' 31 1 ++ w.extractLsb' 7 1 ++ w.extractLsb' 25 6 ++ w.extractLsb' 8 4 ++ 0#1

/-- The jump offset in a word (rule R88). -/
def jumpOff (w : Word) : BitVec 21 :=
  w.extractLsb' 31 1 ++ w.extractLsb' 12 8 ++ w.extractLsb' 20 1 ++ w.extractLsb' 21 10 ++ 0#1

/-- The data access an instruction makes (rules R59, R127, R128): its kind, address and width; none but the nine
loads and stores make one. -/
def dataAccess (s : State) : Instr → Option (AccessKind × Word × Width)
  | .lb _ rs1 imm  => some (.load, address rs1 imm s, .w8)
  | .lbu _ rs1 imm => some (.load, address rs1 imm s, .w8)
  | .lh _ rs1 imm  => some (.load, address rs1 imm s, .w16)
  | .lhu _ rs1 imm => some (.load, address rs1 imm s, .w16)
  | .lw _ rs1 imm  => some (.load, address rs1 imm s, .w32)
  | .lwu _ rs1 imm => some (.load, address rs1 imm s, .w32)
  | .sb _ rs1 imm  => some (.store, address rs1 imm s, .w8)
  | .sh _ rs1 imm  => some (.store, address rs1 imm s, .w16)
  | .sw _ rs1 imm  => some (.store, address rs1 imm s, .w32)
  | .lui _ _ | .auipc _ _ | .jal _ _ | .jalr _ _ _ | .beq _ _ _ | .bne _ _ _ | .blt _ _ _ | .bge _ _ _
  | .bltu _ _ _ | .bgeu _ _ _ | .addi _ _ _ | .slti _ _ _ | .sltiu _ _ _ | .xori _ _ _ | .ori _ _ _
  | .andi _ _ _ | .slli _ _ _ | .srli _ _ _ | .srai _ _ _ | .add _ _ _ | .sub _ _ _ | .sll _ _ _ | .slt _ _ _
  | .sltu _ _ _ | .xor _ _ _ | .srl _ _ _ | .sra _ _ _ | .or _ _ _ | .and _ _ _ | .fence _ _ _ _ _
  | .csrrw _ _ _ | .csrrs _ _ _ | .csrrc _ _ _ | .csrrwi _ _ _ | .csrrsi _ _ _ | .csrrci _ _ _ | .ecall
  | .ebreak => none

/-- The number of bytes of an access width (rule R13). -/
def byteCount : Width → Nat
  | .w8  => 1
  | .w16 => 2
  | .w32 => 4

/-- The data access of the instruction, if it makes one, is admitted. -/
def AccessAdmitted (s : State) (i : Instr) : Prop :=
  ∀ k a w, dataAccess s i = some (k, a, w) → Admits s.cfg a (byteCount w)

/-- The register an instruction writes (rule R23, "Write rd"). -/
def destination : Instr → Option Reg
  | .lui rd _ | .auipc rd _ | .jal rd _ | .jalr rd _ _ => some rd
  | .lb rd _ _ | .lh rd _ _ | .lw rd _ _ | .lbu rd _ _ | .lhu rd _ _ | .lwu rd _ _ => some rd
  | .addi rd _ _ | .slti rd _ _ | .sltiu rd _ _ | .xori rd _ _ | .ori rd _ _ | .andi rd _ _ => some rd
  | .slli rd _ _ | .srli rd _ _ | .srai rd _ _ => some rd
  | .add rd _ _ | .sub rd _ _ | .sll rd _ _ | .slt rd _ _ | .sltu rd _ _ => some rd
  | .xor rd _ _ | .srl rd _ _ | .sra rd _ _ | .or rd _ _ | .and rd _ _ => some rd
  | .beq _ _ _ | .bne _ _ _ | .blt _ _ _ | .bge _ _ _ | .bltu _ _ _ | .bgeu _ _ _ | .sb _ _ _ | .sh _ _ _
  | .sw _ _ _ | .fence _ _ _ _ _ | .csrrw _ _ _ | .csrrs _ _ _ | .csrrc _ _ _ | .csrrwi _ _ _ | .csrrsi _ _ _
  | .csrrci _ _ _ | .ecall | .ebreak => none

/-- The registers an instruction reads (rule R23, "Read rs1", "Read rs2"). -/
def sources : Instr → List Reg
  | .jalr _ rs1 _ => [rs1]
  | .beq rs1 rs2 _ | .bne rs1 rs2 _ | .blt rs1 rs2 _ | .bge rs1 rs2 _ | .bltu rs1 rs2 _ | .bgeu rs1 rs2 _ => [rs1, rs2]
  | .lb _ rs1 _ | .lh _ rs1 _ | .lw _ rs1 _ | .lbu _ rs1 _ | .lhu _ rs1 _ | .lwu _ rs1 _ => [rs1]
  | .sb rs2 rs1 _ | .sh rs2 rs1 _ | .sw rs2 rs1 _ => [rs1, rs2]
  | .addi _ rs1 _ | .slti _ rs1 _ | .sltiu _ rs1 _ | .xori _ rs1 _ | .ori _ rs1 _ | .andi _ rs1 _ => [rs1]
  | .slli _ rs1 _ | .srli _ rs1 _ | .srai _ rs1 _ => [rs1]
  | .add _ rs1 rs2 | .sub _ rs1 rs2 | .sll _ rs1 rs2 | .slt _ rs1 rs2 | .sltu _ rs1 rs2 => [rs1, rs2]
  | .xor _ rs1 rs2 | .srl _ rs1 rs2 | .sra _ rs1 rs2 | .or _ rs1 rs2 | .and _ rs1 rs2 => [rs1, rs2]
  | .lui _ _ | .auipc _ _ | .jal _ _ | .fence _ _ _ _ _ | .csrrw _ _ _ | .csrrs _ _ _ | .csrrc _ _ _
  | .csrrwi _ _ _ | .csrrsi _ _ _ | .csrrci _ _ _ | .ecall | .ebreak => []

/-- Where the PC may go from `pc` besides `pc + 4` (rule R126): the targets of the branches and jumps alone. -/
def jumpTarget (s : State) : Instr → Option Word
  | .jal _ off      => some (s.pc + off.signExtend 32)
  | .jalr _ rs1 imm => some ((s.readReg rs1 + imm.signExtend 32) &&& 0xFFFFFFFE#32)
  | .beq _ _ off | .bne _ _ off | .blt _ _ off | .bge _ _ off | .bltu _ _ off | .bgeu _ _ off =>
    some (s.pc + off.signExtend 32)
  | .lui _ _ | .auipc _ _ | .lb _ _ _ | .lh _ _ _ | .lw _ _ _ | .lbu _ _ _ | .lhu _ _ _ | .lwu _ _ _
  | .sb _ _ _ | .sh _ _ _ | .sw _ _ _ | .addi _ _ _ | .slti _ _ _ | .sltiu _ _ _ | .xori _ _ _ | .ori _ _ _
  | .andi _ _ _ | .slli _ _ _ | .srli _ _ _ | .srai _ _ _ | .add _ _ _ | .sub _ _ _ | .sll _ _ _ | .slt _ _ _
  | .sltu _ _ _ | .xor _ _ _ | .srl _ _ _ | .sra _ _ _ | .or _ _ _ | .and _ _ _ | .fence _ _ _ _ _
  | .csrrw _ _ _ | .csrrs _ _ _ | .csrrc _ _ _ | .csrrwi _ _ _ | .csrrsi _ _ _ | .csrrci _ _ _ | .ecall
  | .ebreak => none

/-- The bits of its word that an instruction's effect depends on: all but the don't-care bits of rule R96 (D7) and
the operands that rules R230 to R236 call ignored. -/
def usedBits : Instr → Word
  | .jalr _ _ _ => 0xFFFF8FFF#32
  | .fence _ _ _ _ _ => 0x0000007F#32
  | .slli _ _ _ | .sll _ _ _ | .slt _ _ _ | .sltu _ _ _ | .xor _ _ _ | .or _ _ _ | .and _ _ _ => 0x01FFFFFF#32
  | .ecall | .ebreak => 0x0010707F#32
  | .csrrw _ _ _ | .csrrs _ _ _ | .csrrc _ _ _ | .csrrwi _ _ _ | .csrrsi _ _ _ | .csrrci _ _ _ => 0x0000707F#32
  | .lui _ _ | .auipc _ _ | .jal _ _ | .beq _ _ _ | .bne _ _ _ | .blt _ _ _ | .bge _ _ _ | .bltu _ _ _
  | .bgeu _ _ _ | .lb _ _ _ | .lh _ _ _ | .lw _ _ _ | .lbu _ _ _ | .lhu _ _ _ | .lwu _ _ _ | .sb _ _ _
  | .sh _ _ _ | .sw _ _ _ | .addi _ _ _ | .slti _ _ _ | .sltiu _ _ _ | .xori _ _ _ | .ori _ _ _ | .andi _ _ _
  | .srli _ _ _ | .srai _ _ _ | .add _ _ _ | .sub _ _ _ | .srl _ _ _ | .sra _ _ _ => 0xFFFFFFFF#32

/-- The bits of its word that an instruction's constructor keeps: the used ones, and the operand fields of FENCE and
the CSR instructions (R230 to R236). -/
def keptBits : Instr → Word
  | .jalr _ _ _ | .fence _ _ _ _ _ => 0xFFFF8FFF#32
  | .slli _ _ _ | .sll _ _ _ | .slt _ _ _ | .sltu _ _ _ | .xor _ _ _ | .or _ _ _ | .and _ _ _ => 0x01FFFFFF#32
  | .ecall | .ebreak => 0x0010707F#32
  | .lui _ _ | .auipc _ _ | .jal _ _ | .beq _ _ _ | .bne _ _ _ | .blt _ _ _ | .bge _ _ _ | .bltu _ _ _
  | .bgeu _ _ _ | .lb _ _ _ | .lh _ _ _ | .lw _ _ _ | .lbu _ _ _ | .lhu _ _ _ | .lwu _ _ _ | .sb _ _ _
  | .sh _ _ _ | .sw _ _ _ | .addi _ _ _ | .slti _ _ _ | .sltiu _ _ _ | .xori _ _ _ | .ori _ _ _ | .andi _ _ _
  | .srli _ _ _ | .srai _ _ _ | .add _ _ _ | .sub _ _ _ | .srl _ _ _ | .sra _ _ _ | .csrrw _ _ _ | .csrrs _ _ _
  | .csrrc _ _ _ | .csrrwi _ _ _ | .csrrsi _ _ _ | .csrrci _ _ _ => 0xFFFFFFFF#32

/-- The illegal words, class by class as rule R97 lists them. -/
def Illegal (w : Word) : Prop :=
  let op := w.extractLsb' 0 7
  let f3 := w.extractLsb' 12 3
  let f7 := w.extractLsb' 25 7
  op ∉ [0x37#7, 0x17#7, 0x6F#7, 0x67#7, 0x63#7, 0x03#7, 0x23#7, 0x13#7, 0x33#7, 0x0F#7, 0x73#7]
    ∨ (op = 0x63#7 ∧ (f3 = 2#3 ∨ f3 = 3#3))
    ∨ (op = 0x03#7 ∧ (f3 = 3#3 ∨ f3 = 7#3))
    ∨ (op = 0x23#7 ∧ 3 ≤ f3.toNat)
    ∨ (op = 0x13#7 ∧ f3 = 5#3 ∧ f7 ≠ 0#7 ∧ f7 ≠ 0x20#7)
    ∨ (op = 0x33#7 ∧ (f3 = 0#3 ∨ f3 = 5#3) ∧ f7 ≠ 0#7 ∧ f7 ≠ 0x20#7)
    ∨ (op = 0x73#7 ∧ f3 = 4#3)

end Sys2Proof.Claims

open Sys2Proof Sys2Proof.Machine Sys2Proof.Claims

/-! ## Encoding -/

/-- Sanity, one word or more of most families: the examples of R150 (LUI), R163 (BNE), R182 (LW), R188 (SW), R211
(SUB) and R236 (CSRRCI); the words of 95_test_vectors.md V26 (JAL), V90 (ADDI) and V14 (SLLI); the FENCE.I, MRET and WFI words that the corner cases of R230, R237 and R238 name; and V110's illegal word.
The numbers are the spec's general-knowledge values (log 5), the B and J bits those of C1 and C2 (log 6). V14, FENCE.I,
MRET and WFI decode so by the spec's reading D7 (log 8), V110 is rejected by its choice D8 (log 9), and the name of the
rejection is the model's (log 26). -/
def Obligations.SampleWordsDecode : Prop :=
  decode 0x123450B7#32 = .ok (.lui 1#5 0x12345#20) ∧
  decode 0xFFDFF06F#32 = .ok (.jal 0#5 0x1FFFFC#21) ∧
  decode 0xFE209EE3#32 = .ok (.bne 1#5 2#5 0x1FFC#13) ∧
  decode 0x0002A303#32 = .ok (.lw 6#5 5#5 0#12) ∧
  decode 0xFE712E23#32 = .ok (.sw 7#5 2#5 0xFFC#12) ∧
  decode 0x80030293#32 = .ok (.addi 5#5 6#5 0x800#12) ∧
  decode 0xFE331293#32 = .ok (.slli 5#5 6#5 3#5) ∧
  decode 0x407302B3#32 = .ok (.sub 5#5 6#5 7#5) ∧
  decode 0x0000100F#32 = .ok (.fence 0#4 0#4 0#4 0#5 0#5) ∧
  decode 0x3003F2F3#32 = .ok (.csrrci 5#5 0x300#12 7#5) ∧
  decode 0x30200073#32 = .ok .ecall ∧
  decode 0x10500073#32 = .ok .ebreak ∧
  decode 0x02435293#32 = .error .opImmFunct7

/-- Every well-formed instruction, at every operand value, decodes from its own word (30_encoding.md, the formats of
R82 and the dispatcher of R95; numbers of R91, R92: log 5, 6). -/
def Obligations.DecodeInvertsEncode : Prop :=
  ∀ i : Instr, i.wf = true → decode (encode i) = .ok i

/-- The other direction: a word that decodes gives a well-formed instruction, whose own word agrees with it on every
bit that is not a don't-care of rule R96 (D7). -/
def Obligations.EncodeInvertsDecodeOnKeptBits : Prop :=
  ∀ (w : Word) (i : Instr), decode w = .ok i →
    i.wf = true ∧ encode i &&& keptBits i = w &&& keptBits i

/-- The decoder and opcode_table.json agree on every word (rule R101, which the spec derives from R95): at most one
row matches a word, a word decodes to the instruction whose row matches it, and is rejected when none does. -/
def Obligations.OpcodeTableDecidesDecoding : Prop :=
  ∀ w : Word,
    (∀ r ∈ opcodeTable, ∀ q ∈ opcodeTable, w &&& r.mask = r.pattern → w &&& q.mask = q.pattern → r = q) ∧
    (∀ i, decode w = .ok i → i.row ∈ opcodeTable ∧ w &&& i.row.mask = i.row.pattern) ∧
    (∀ e, decode w = .error e → ∀ r ∈ opcodeTable, w &&& r.mask ≠ r.pattern)

/-- Rule R96 (the spec's own reading, D7): a word that differs from a legal word only in bits the instruction does
not use decodes to the same instruction of the table, with the same effect in every state. -/
def Obligations.DontCareBitsDoNotMatter : Prop :=
  ∀ (w w' : Word) (i : Instr), decode w = .ok i → w &&& usedBits i = w' &&& usedBits i →
    ∃ j, decode w' = .ok j ∧ j.mnemonic = i.mnemonic ∧ ∀ s, exec j s = exec i s

/-- Rule R97 (derived by the spec from R95): the words of classes (a) to (g), and no others, are rejected; every
word whose bits 1:0 are not 11 is among them; and executing one reports IllegalInstruction with the word. -/
def Obligations.IllegalWordsAreExactlyTheListedClasses : Prop :=
  ∀ w : Word,
    ((∃ e, decode w = .error e) ↔ Illegal w) ∧
    (w.extractLsb' 0 2 ≠ 3#2 → Illegal w) ∧
    (Illegal w → ∀ s, execute w s = .fault (.illegalInstruction w))

/-- The five immediates and the shift amount, bit by bit from the word (rules R84 to R89; the places of the B and J
pieces are the standard layout, 90_conflicts.md C1 and C2, log 6). -/
def Obligations.ImmediatesAreAssembledFromTheirBits : Prop :=
  ∀ (w : Word) (i : Nat), i < 32 →
    ((immI (Inst.imm12I w)).getLsbD i = if i < 12 then w.getLsbD (20 + i) else w.getLsbD 31) ∧
    ((immS (Inst.imm12S w)).getLsbD i =
      if i < 5 then w.getLsbD (7 + i) else if i < 12 then w.getLsbD (20 + i) else w.getLsbD 31) ∧
    ((immB (Inst.off13B w)).getLsbD i =
      if i = 0 then false else if i < 5 then w.getLsbD (7 + i) else if i < 11 then w.getLsbD (20 + i)
      else if i = 11 then w.getLsbD 7 else w.getLsbD 31) ∧
    ((immU (Inst.imm20U w)).getLsbD i = if i < 12 then false else w.getLsbD i) ∧
    ((immJ (Inst.off21J w)).getLsbD i =
      if i = 0 then false else if i < 11 then w.getLsbD (20 + i) else if i = 11 then w.getLsbD 20
      else if i < 20 then w.getLsbD i else w.getLsbD 31) ∧
    (i < 5 → (Inst.shamt w).getLsbD i = w.getLsbD (20 + i))

/-! ## The step -/

/-- When the four bytes at the PC are admitted and decode to an instruction, the step is that instruction's own effect
at that state, and nothing is added around it (40_datapath.md R120; D1, D2). -/
def Obligations.StepRunsTheDecodedInstruction : Prop :=
  ∀ (s : State) (i : Instr), Admits s.cfg s.pc 4 → decode (word s s.pc.toNat) = .ok i → step s = exec i s

/-- Rule R121: the fetch is the little-endian word load at the PC; the instruction then runs on the unchanged
state; a refused fetch reports MemoryFault(Fetch, pc, 32) and runs nothing. -/
def Obligations.FetchIsTheWordLoadAtThePc : Prop :=
  ∀ s : State,
    (Admits s.cfg s.pc 4 → fetch s = .ok (word s s.pc.toNat) ∧ step s = execute (word s s.pc.toNat) s) ∧
    (¬ Admits s.cfg s.pc 4 →
      fetch s = .error (.memoryFault .fetch s.pc .w32) ∧ step s = .fault (.memoryFault .fetch s.pc .w32))

/-- Rules R122, R250: IllegalInstruction is reported, with the word, exactly when the decode is Illegal, whatever the
state (so before any operand is used or access made), by `execute` and by a step that fetched the word; a legal word
runs its instruction, and no instruction, the stubs among them, reports it. -/
def Obligations.IllegalInstructionComesFromDecodeAlone : Prop :=
  (∀ (w : Word) (s : State), (∃ e, decode w = .error e) ↔ execute w s = .fault (.illegalInstruction w)) ∧
  (∀ s : State, Admits s.cfg s.pc 4 → ((∃ e, decode (word s s.pc.toNat) = .error e) ↔
    step s = .fault (.illegalInstruction (word s s.pc.toNat)))) ∧
  (∀ (w : Word) (i : Instr) (s : State), decode w = .ok i → execute w s = exec i s) ∧
  (∀ (i : Instr) (s : State) (w : Word), exec i s ≠ .fault (.illegalInstruction w))

/-- Rule R254 (D12): a refused fetch is reported whatever the bytes at the PC are; an illegal word is reported even
if its would-be access is bad; a data fault is reported only of a fetched, legal instruction. -/
def Obligations.FaultsAreReportedInStepOrder : Prop :=
  ∀ (s : State) (f : Fault), step s = .fault f →
    (¬ Admits s.cfg s.pc 4 ∧ f = .memoryFault .fetch s.pc .w32) ∨
    (Admits s.cfg s.pc 4 ∧ (∃ e, decode (word s s.pc.toNat) = .error e)
      ∧ f = .illegalInstruction (word s s.pc.toNat)) ∨
    (Admits s.cfg s.pc 4 ∧ ∃ i k a w, decode (word s s.pc.toNat) = .ok i ∧ dataAccess s i = some (k, a, w)
      ∧ ¬ Admits s.cfg a (byteCount w) ∧ f = .memoryFault k a w)

/-- Rule R252 (D11), for each call of `step` and of `execute` (R39): a call that reports a fault leaves the state as it
was, so calling again reports the same; a call reports Ok exactly when the step or the word completes, and leaves the
state it completes with. -/
def Obligations.FaultingCallChangesNothing : Prop :=
  ∀ s t : State,
    (∀ f, stepCall s = some (t, .fault f) → t = s ∧ stepCall t = some (t, .fault f) ∧ step s = .fault f) ∧
    (stepCall s = some (t, .ok) ↔ step s = .next t) ∧
    ∀ w,
      (∀ f, executeCall w s = some (t, .fault f) →
        t = s ∧ executeCall w t = some (t, .fault f) ∧ execute w s = .fault f) ∧
      (executeCall w s = some (t, .ok) ↔ execute w s = .next t)

/-- 93_implementation_defined.md, end of part 1 ("No behaviour is treated as `refuse`"): no step is refused and no word
is, so each call of `step` and of `execute` returns a status (R39). -/
def Obligations.NoStepIsRefused : Prop :=
  ∀ (s : State) (r : Refusal),
    step s ≠ .refused r ∧ stepCall s ≠ none ∧
    ∀ w, execute w s ≠ .refused r ∧ executeCall w s ≠ none

/-- 60_exceptions.md R251 and R255, with the admission the spec chooses in D5 and D6 (log 12, 13) and LWU among the loads
(D23, log 7): executing an instruction faults only when it is a load or store whose access the bus refuses, and then
with that access; every other instruction completes in every state. -/
def Obligations.OnlyARefusedDataAccessFaults : Prop :=
  ∀ (i : Instr) (s : State),
    (∀ f, exec i s = .fault f ↔
      ∃ k a w, dataAccess s i = some (k, a, w) ∧ ¬ Admits s.cfg a (byteCount w) ∧ f = .memoryFault k a w) ∧
    (dataAccess s i = none → ∃ t, exec i s = .next t)

/-- A step completes exactly when its fetch is admitted, its word is legal and its data access, if it makes one, is
admitted (40_datapath.md R120, 60_exceptions.md R250, R251). -/
def Obligations.StepCompletesExactlyWhenNothingIsRefused : Prop :=
  ∀ s : State, s.completes ↔
    Admits s.cfg s.pc 4 ∧ ∃ i, decode (word s s.pc.toNat) = .ok i ∧ AccessAdmitted s i

/-! ## Upper immediates and jumps -/

/-- Rule R150. -/
def Obligations.LuiLoadsTheUpperImmediate : Prop :=
  (∀ rd imm, Computes (.lui rd imm) rd (fun _ => imm ++ 0#12) (fun s => s.pc + 4#32)) ∧
  Encodes 0x00000037#32 0x0000007F#32 (fun w => .lui (w.extractLsb' 7 5) (w.extractLsb' 12 20))

/-- Rule R151. -/
def Obligations.AuipcAddsTheUpperImmediateToItsAddress : Prop :=
  (∀ rd imm, Computes (.auipc rd imm) rd (fun s => s.pc + (imm ++ 0#12)) (fun s => s.pc + 4#32)) ∧
  Encodes 0x00000017#32 0x0000007F#32 (fun w => .auipc (w.extractLsb' 7 5) (w.extractLsb' 12 20))

/-- Rule R160: the link, the target, and that a bad target is reported by the next step's fetch. -/
def Obligations.JalLinksAndJumps : Prop :=
  (∀ rd off, Computes (.jal rd off) rd (fun s => s.pc + 4#32) (fun s => s.pc + off.signExtend 32)) ∧
  (∀ rd off s t, exec (.jal rd off) s = .next t → ¬ Admits s.cfg (s.pc + off.signExtend 32) 4 →
    step t = .fault (.memoryFault .fetch (s.pc + off.signExtend 32) .w32)) ∧
  Encodes 0x0000006F#32 0x0000007F#32 (fun w => .jal (w.extractLsb' 7 5) (jumpOff w))

/-- JALR (R161; D7 for its funct3, D10 for the old x[rs1]): the target is computed from the old x[rs1] even when rd is
rs1, its bit 0 cleared; a bad target is reported by the next step's fetch. -/
def Obligations.JalrLinksAndJumpsFromTheOldRegister : Prop :=
  (∀ rd rs1 imm, Computes (.jalr rd rs1 imm) rd (fun s => s.pc + 4#32)
    (fun s => (s.readReg rs1 + imm.signExtend 32) &&& 0xFFFFFFFE#32)) ∧
  (∀ rd rs1 imm s t, exec (.jalr rd rs1 imm) s = .next t → ¬ Admits s.cfg t.pc 4 →
    step t = .fault (.memoryFault .fetch t.pc .w32)) ∧
  Encodes 0x00000067#32 0x0000007F#32
    (fun w => .jalr (w.extractLsb' 7 5) (w.extractLsb' 15 5) (w.extractLsb' 20 12))

/-! ## Branches -/

/-- Rules R162, R163. -/
def Obligations.BeqBneBranchOnEquality : Prop :=
  (∀ rs1 rs2 off, OnlyMoves (.beq rs1 rs2 off)
    (fun s => if s.readReg rs1 = s.readReg rs2 then s.pc + off.signExtend 32 else s.pc + 4#32)) ∧
  (∀ rs1 rs2 off, OnlyMoves (.bne rs1 rs2 off)
    (fun s => if s.readReg rs1 ≠ s.readReg rs2 then s.pc + off.signExtend 32 else s.pc + 4#32)) ∧
  Encodes 0x00000063#32 0x0000707F#32 (fun w => .beq (w.extractLsb' 15 5) (w.extractLsb' 20 5) (branchOff w)) ∧
  Encodes 0x00001063#32 0x0000707F#32 (fun w => .bne (w.extractLsb' 15 5) (w.extractLsb' 20 5) (branchOff w))

/-- Rules R164, R165. -/
def Obligations.BltBgeBranchOnSignedOrder : Prop :=
  (∀ rs1 rs2 off, OnlyMoves (.blt rs1 rs2 off)
    (fun s => if (s.readReg rs1).toInt < (s.readReg rs2).toInt then s.pc + off.signExtend 32 else s.pc + 4#32)) ∧
  (∀ rs1 rs2 off, OnlyMoves (.bge rs1 rs2 off)
    (fun s => if (s.readReg rs2).toInt ≤ (s.readReg rs1).toInt then s.pc + off.signExtend 32 else s.pc + 4#32)) ∧
  Encodes 0x00004063#32 0x0000707F#32 (fun w => .blt (w.extractLsb' 15 5) (w.extractLsb' 20 5) (branchOff w)) ∧
  Encodes 0x00005063#32 0x0000707F#32 (fun w => .bge (w.extractLsb' 15 5) (w.extractLsb' 20 5) (branchOff w))

/-- Rules R166, R167. -/
def Obligations.BltuBgeuBranchOnUnsignedOrder : Prop :=
  (∀ rs1 rs2 off, OnlyMoves (.bltu rs1 rs2 off)
    (fun s => if (s.readReg rs1).toNat < (s.readReg rs2).toNat then s.pc + off.signExtend 32 else s.pc + 4#32)) ∧
  (∀ rs1 rs2 off, OnlyMoves (.bgeu rs1 rs2 off)
    (fun s => if (s.readReg rs2).toNat ≤ (s.readReg rs1).toNat then s.pc + off.signExtend 32 else s.pc + 4#32)) ∧
  Encodes 0x00006063#32 0x0000707F#32 (fun w => .bltu (w.extractLsb' 15 5) (w.extractLsb' 20 5) (branchOff w)) ∧
  Encodes 0x00007063#32 0x0000707F#32 (fun w => .bgeu (w.extractLsb' 15 5) (w.extractLsb' 20 5) (branchOff w))

/-! ## Loads and stores -/

/-- Rules R180, R181. -/
def Obligations.LbLhLoadSignExtended : Prop :=
  (∀ rd rs1 imm, Loads (.lb rd rs1 imm) rd (address rs1 imm) .w8 1
    (fun s => (s.mem.read (address rs1 imm s).toNat).signExtend 32)) ∧
  (∀ rd rs1 imm, Loads (.lh rd rs1 imm) rd (address rs1 imm) .w16 2
    (fun s => (half s (address rs1 imm s).toNat).signExtend 32)) ∧
  Encodes 0x00000003#32 0x0000707F#32
    (fun w => .lb (w.extractLsb' 7 5) (w.extractLsb' 15 5) (w.extractLsb' 20 12)) ∧
  Encodes 0x00001003#32 0x0000707F#32
    (fun w => .lh (w.extractLsb' 7 5) (w.extractLsb' 15 5) (w.extractLsb' 20 12))

/-- Rule R182. -/
def Obligations.LwLoadsTheWord : Prop :=
  (∀ rd rs1 imm, Loads (.lw rd rs1 imm) rd (address rs1 imm) .w32 4
    (fun s => word s (address rs1 imm s).toNat)) ∧
  Encodes 0x00002003#32 0x0000707F#32
    (fun w => .lw (w.extractLsb' 7 5) (w.extractLsb' 15 5) (w.extractLsb' 20 12))

/-- Rules R183, R184. -/
def Obligations.LbuLhuLoadZeroExtended : Prop :=
  (∀ rd rs1 imm, Loads (.lbu rd rs1 imm) rd (address rs1 imm) .w8 1
    (fun s => (s.mem.read (address rs1 imm s).toNat).setWidth 32)) ∧
  (∀ rd rs1 imm, Loads (.lhu rd rs1 imm) rd (address rs1 imm) .w16 2
    (fun s => (half s (address rs1 imm s).toNat).setWidth 32)) ∧
  Encodes 0x00004003#32 0x0000707F#32
    (fun w => .lbu (w.extractLsb' 7 5) (w.extractLsb' 15 5) (w.extractLsb' 20 12)) ∧
  Encodes 0x00005003#32 0x0000707F#32
    (fun w => .lhu (w.extractLsb' 7 5) (w.extractLsb' 15 5) (w.extractLsb' 20 12))

/-- LWU (R185; kept by C4, D23): at LOAD funct3 110, and with LW's result. -/
def Obligations.LwuLoadsTheWord : Prop :=
  (∀ rd rs1 imm, Loads (.lwu rd rs1 imm) rd (address rs1 imm) .w32 4
    (fun s => word s (address rs1 imm s).toNat)) ∧
  Encodes 0x00006003#32 0x0000707F#32
    (fun w => .lwu (w.extractLsb' 7 5) (w.extractLsb' 15 5) (w.extractLsb' 20 12))

/-- Rules R186, R187. -/
def Obligations.SbShStoreTheLowBytes : Prop :=
  (∀ rs2 rs1 imm, Stores (.sb rs2 rs1 imm) (address rs1 imm) .w8 1 (fun s => s.readReg rs2)) ∧
  (∀ rs2 rs1 imm, Stores (.sh rs2 rs1 imm) (address rs1 imm) .w16 2 (fun s => s.readReg rs2)) ∧
  Encodes 0x00000023#32 0x0000707F#32 (fun w => .sb (w.extractLsb' 20 5) (w.extractLsb' 15 5) (storeImm w)) ∧
  Encodes 0x00001023#32 0x0000707F#32 (fun w => .sh (w.extractLsb' 20 5) (w.extractLsb' 15 5) (storeImm w))

/-- Rule R188. -/
def Obligations.SwStoresTheWord : Prop :=
  (∀ rs2 rs1 imm, Stores (.sw rs2 rs1 imm) (address rs1 imm) .w32 4 (fun s => s.readReg rs2)) ∧
  Encodes 0x00002023#32 0x0000707F#32 (fun w => .sw (w.extractLsb' 20 5) (w.extractLsb' 15 5) (storeImm w))

/-! ## ALU, register-immediate -/

/-- Rules R200, R201. -/
def Obligations.AddiSltiComputeOnTheSignedImmediate : Prop :=
  (∀ rd rs1 imm, Computes (.addi rd rs1 imm) rd
    (fun s => BitVec.ofInt 32 ((s.readReg rs1).toInt + imm.toInt)) (fun s => s.pc + 4#32)) ∧
  (∀ rd rs1 imm, Computes (.slti rd rs1 imm) rd
    (fun s => bit ((s.readReg rs1).toInt < imm.toInt)) (fun s => s.pc + 4#32)) ∧
  Encodes 0x00000013#32 0x0000707F#32
    (fun w => .addi (w.extractLsb' 7 5) (w.extractLsb' 15 5) (w.extractLsb' 20 12)) ∧
  Encodes 0x00002013#32 0x0000707F#32
    (fun w => .slti (w.extractLsb' 7 5) (w.extractLsb' 15 5) (w.extractLsb' 20 12))

/-- R202 to R205, whose immediates the spec's choice D9 sign-extends (log 10). -/
def Obligations.SltiuAndLogicalImmediatesAreSignExtended : Prop :=
  (∀ rd rs1 imm, Computes (.sltiu rd rs1 imm) rd
    (fun s => bit ((s.readReg rs1).toNat < (BitVec.ofInt 32 imm.toInt).toNat)) (fun s => s.pc + 4#32)) ∧
  (∀ rd rs1 imm, Computes (.xori rd rs1 imm) rd
    (fun s => s.readReg rs1 ^^^ BitVec.ofInt 32 imm.toInt) (fun s => s.pc + 4#32)) ∧
  (∀ rd rs1 imm, Computes (.ori rd rs1 imm) rd
    (fun s => s.readReg rs1 ||| BitVec.ofInt 32 imm.toInt) (fun s => s.pc + 4#32)) ∧
  (∀ rd rs1 imm, Computes (.andi rd rs1 imm) rd
    (fun s => s.readReg rs1 &&& BitVec.ofInt 32 imm.toInt) (fun s => s.pc + 4#32)) ∧
  Encodes 0x00003013#32 0x0000707F#32
    (fun w => .sltiu (w.extractLsb' 7 5) (w.extractLsb' 15 5) (w.extractLsb' 20 12)) ∧
  Encodes 0x00004013#32 0x0000707F#32
    (fun w => .xori (w.extractLsb' 7 5) (w.extractLsb' 15 5) (w.extractLsb' 20 12)) ∧
  Encodes 0x00006013#32 0x0000707F#32
    (fun w => .ori (w.extractLsb' 7 5) (w.extractLsb' 15 5) (w.extractLsb' 20 12)) ∧
  Encodes 0x00007013#32 0x0000707F#32
    (fun w => .andi (w.extractLsb' 7 5) (w.extractLsb' 15 5) (w.extractLsb' 20 12))

/-- Rule R206: the word's bits 31:25 play no part, so a raw immediate above 31 shifts by its low 5 bits. -/
def Obligations.SlliShiftsByTheLowFiveBits : Prop :=
  (∀ rd rs1 shamt, Computes (.slli rd rs1 shamt) rd
    (fun s => BitVec.ofNat 32 ((s.readReg rs1).toNat * 2 ^ shamt.toNat)) (fun s => s.pc + 4#32)) ∧
  Encodes 0x00001013#32 0x0000707F#32
    (fun w => .slli (w.extractLsb' 7 5) (w.extractLsb' 15 5) (w.extractLsb' 20 5))

/-- R207, R208 (D8 for the funct7 that selects them): a logical and an arithmetic right shift, as divisions by a power
of two, rounding down, of the unsigned and of the signed value. -/
def Obligations.SrliSraiShiftRight : Prop :=
  (∀ rd rs1 shamt, Computes (.srli rd rs1 shamt) rd
    (fun s => BitVec.ofNat 32 ((s.readReg rs1).toNat / 2 ^ shamt.toNat)) (fun s => s.pc + 4#32)) ∧
  (∀ rd rs1 shamt, Computes (.srai rd rs1 shamt) rd
    (fun s => BitVec.ofInt 32 ((s.readReg rs1).toInt / 2 ^ shamt.toNat)) (fun s => s.pc + 4#32)) ∧
  Encodes 0x00005013#32 0xFE00707F#32
    (fun w => .srli (w.extractLsb' 7 5) (w.extractLsb' 15 5) (w.extractLsb' 20 5)) ∧
  Encodes 0x40005013#32 0xFE00707F#32
    (fun w => .srai (w.extractLsb' 7 5) (w.extractLsb' 15 5) (w.extractLsb' 20 5))

/-! ## ALU, register-register -/

/-- Rules R210, R211. -/
def Obligations.AddSubWrapSilently : Prop :=
  (∀ rd rs1 rs2, Computes (.add rd rs1 rs2) rd
    (fun s => BitVec.ofNat 32 ((s.readReg rs1).toNat + (s.readReg rs2).toNat)) (fun s => s.pc + 4#32)) ∧
  (∀ rd rs1 rs2, Computes (.sub rd rs1 rs2) rd
    (fun s => BitVec.ofInt 32 ((s.readReg rs1).toInt - (s.readReg rs2).toInt)) (fun s => s.pc + 4#32)) ∧
  Encodes 0x00000033#32 0xFE00707F#32
    (fun w => .add (w.extractLsb' 7 5) (w.extractLsb' 15 5) (w.extractLsb' 20 5)) ∧
  Encodes 0x40000033#32 0xFE00707F#32
    (fun w => .sub (w.extractLsb' 7 5) (w.extractLsb' 15 5) (w.extractLsb' 20 5))

/-- Rules R216, R217: only the low 5 bits of x[rs2] count. -/
def Obligations.SrlSraShiftByTheLowFiveBits : Prop :=
  (∀ rd rs1 rs2, Computes (.srl rd rs1 rs2) rd
    (fun s => BitVec.ofNat 32 ((s.readReg rs1).toNat / 2 ^ ((s.readReg rs2).toNat % 32)))
    (fun s => s.pc + 4#32)) ∧
  (∀ rd rs1 rs2, Computes (.sra rd rs1 rs2) rd
    (fun s => BitVec.ofInt 32 ((s.readReg rs1).toInt / 2 ^ ((s.readReg rs2).toNat % 32)))
    (fun s => s.pc + 4#32)) ∧
  Encodes 0x00005033#32 0xFE00707F#32
    (fun w => .srl (w.extractLsb' 7 5) (w.extractLsb' 15 5) (w.extractLsb' 20 5)) ∧
  Encodes 0x40005033#32 0xFE00707F#32
    (fun w => .sra (w.extractLsb' 7 5) (w.extractLsb' 15 5) (w.extractLsb' 20 5))

/-- R212 to R215, R218, R219, whose funct7 the spec's reading D7 does not consult (log 8). -/
def Obligations.SllSltSltuXorOrAndCompute : Prop :=
  (∀ rd rs1 rs2, Computes (.sll rd rs1 rs2) rd
    (fun s => BitVec.ofNat 32 ((s.readReg rs1).toNat * 2 ^ ((s.readReg rs2).toNat % 32)))
    (fun s => s.pc + 4#32)) ∧
  (∀ rd rs1 rs2, Computes (.slt rd rs1 rs2) rd
    (fun s => bit ((s.readReg rs1).toInt < (s.readReg rs2).toInt)) (fun s => s.pc + 4#32)) ∧
  (∀ rd rs1 rs2, Computes (.sltu rd rs1 rs2) rd
    (fun s => bit ((s.readReg rs1).toNat < (s.readReg rs2).toNat)) (fun s => s.pc + 4#32)) ∧
  (∀ rd rs1 rs2, Computes (.xor rd rs1 rs2) rd
    (fun s => s.readReg rs1 ^^^ s.readReg rs2) (fun s => s.pc + 4#32)) ∧
  (∀ rd rs1 rs2, Computes (.or rd rs1 rs2) rd
    (fun s => s.readReg rs1 ||| s.readReg rs2) (fun s => s.pc + 4#32)) ∧
  (∀ rd rs1 rs2, Computes (.and rd rs1 rs2) rd
    (fun s => s.readReg rs1 &&& s.readReg rs2) (fun s => s.pc + 4#32)) ∧
  Encodes 0x00001033#32 0x0000707F#32
    (fun w => .sll (w.extractLsb' 7 5) (w.extractLsb' 15 5) (w.extractLsb' 20 5)) ∧
  Encodes 0x00002033#32 0x0000707F#32
    (fun w => .slt (w.extractLsb' 7 5) (w.extractLsb' 15 5) (w.extractLsb' 20 5)) ∧
  Encodes 0x00003033#32 0x0000707F#32
    (fun w => .sltu (w.extractLsb' 7 5) (w.extractLsb' 15 5) (w.extractLsb' 20 5)) ∧
  Encodes 0x00004033#32 0x0000707F#32
    (fun w => .xor (w.extractLsb' 7 5) (w.extractLsb' 15 5) (w.extractLsb' 20 5)) ∧
  Encodes 0x00006033#32 0x0000707F#32
    (fun w => .or (w.extractLsb' 7 5) (w.extractLsb' 15 5) (w.extractLsb' 20 5)) ∧
  Encodes 0x00007033#32 0x0000707F#32
    (fun w => .and (w.extractLsb' 7 5) (w.extractLsb' 15 5) (w.extractLsb' 20 5))

/-! ## Stubs -/

/-- FENCE (R230; D16): every MISC-MEM word advances the PC and changes nothing else. -/
def Obligations.FenceOnlyAdvancesThePc : Prop :=
  (∀ fm pred succ rs1 rd, OnlyMoves (.fence fm pred succ rs1 rd) (fun s => s.pc + 4#32)) ∧
  Encodes 0x0000000F#32 0x0000007F#32
    (fun w => .fence (w.extractLsb' 28 4) (w.extractLsb' 24 4) (w.extractLsb' 20 4) (w.extractLsb' 15 5)
      (w.extractLsb' 7 5))

/-- The CSR family (R231 to R236; D15): for every rd, csr address and source, the PC advances and nothing else
changes; rd is not written. -/
def Obligations.CsrInstructionsOnlyAdvanceThePc : Prop :=
  (∀ rd csr rs1, OnlyMoves (.csrrw rd csr rs1) (fun s => s.pc + 4#32)) ∧
  (∀ rd csr rs1, OnlyMoves (.csrrs rd csr rs1) (fun s => s.pc + 4#32)) ∧
  (∀ rd csr rs1, OnlyMoves (.csrrc rd csr rs1) (fun s => s.pc + 4#32)) ∧
  (∀ rd csr uimm, OnlyMoves (.csrrwi rd csr uimm) (fun s => s.pc + 4#32)) ∧
  (∀ rd csr uimm, OnlyMoves (.csrrsi rd csr uimm) (fun s => s.pc + 4#32)) ∧
  (∀ rd csr uimm, OnlyMoves (.csrrci rd csr uimm) (fun s => s.pc + 4#32)) ∧
  Encodes 0x00001073#32 0x0000707F#32
    (fun w => .csrrw (w.extractLsb' 7 5) (w.extractLsb' 20 12) (w.extractLsb' 15 5)) ∧
  Encodes 0x00002073#32 0x0000707F#32
    (fun w => .csrrs (w.extractLsb' 7 5) (w.extractLsb' 20 12) (w.extractLsb' 15 5)) ∧
  Encodes 0x00003073#32 0x0000707F#32
    (fun w => .csrrc (w.extractLsb' 7 5) (w.extractLsb' 20 12) (w.extractLsb' 15 5)) ∧
  Encodes 0x00005073#32 0x0000707F#32
    (fun w => .csrrwi (w.extractLsb' 7 5) (w.extractLsb' 20 12) (w.extractLsb' 15 5)) ∧
  Encodes 0x00006073#32 0x0000707F#32
    (fun w => .csrrsi (w.extractLsb' 7 5) (w.extractLsb' 20 12) (w.extractLsb' 15 5)) ∧
  Encodes 0x00007073#32 0x0000707F#32
    (fun w => .csrrci (w.extractLsb' 7 5) (w.extractLsb' 20 12) (w.extractLsb' 15 5))

/-- ECALL and EBREAK (R237, R238; D17): told apart by bit 20, they advance the PC and change nothing else: no trap,
no halt. -/
def Obligations.EcallEbreakOnlyAdvanceThePc : Prop :=
  OnlyMoves .ecall (fun s => s.pc + 4#32) ∧
  OnlyMoves .ebreak (fun s => s.pc + 4#32) ∧
  Encodes 0x00000073#32 0x0010707F#32 (fun _ => .ecall) ∧
  Encodes 0x00100073#32 0x0010707F#32 (fun _ => .ebreak)

/-! ## Whole-machine rules -/

/-- The PC after an instruction is pc + 4, or the target of that branch or jump; nothing else moves it
(40_datapath.md R126; D2, D3). -/
def Obligations.OnlyJumpsAndBranchesMoveThePcElsewhere : Prop :=
  ∀ (i : Instr) (s t : State), exec i s = .next t →
    t.pc = s.pc + 4#32 ∨ jumpTarget s i = some t.pc

/-- 10_state.md R21 and R22: index 0 reads 0 and a write to it is discarded; a write to another index sets that register
and no other; before any write, a register reads its reset value, which R35 gives (D4, D18). -/
def Obligations.RegisterPortsGateRegisterZero : Prop :=
  (∀ s : State, s.readReg 0#5 = 0#32) ∧
  (∀ (s : State) (v : Word), s.writeReg 0#5 v = s) ∧
  (∀ (s : State) (r q : Reg) (v : Word), r ≠ 0#5 →
    (s.writeReg r v).readReg q = if q = r then v else s.readReg q) ∧
  (∀ (c : Config) (m : Memory) (r : Reg), (State.construct c m).readReg r =
    if r = 2#5 then BitVec.ofNat 32 (c.memBase.toNat + c.memSize) else 0#32)

/-- An instruction changes no register but its destination (10_state.md R23, derived by the spec from the instruction
pages); a store, a branch or a stub changes none. -/
def Obligations.OnlyTheDestinationRegisterChanges : Prop :=
  ∀ (i : Instr) (s t : State), exec i s = .next t →
    ∀ r, destination i ≠ some r → t.readReg r = s.readReg r

/-- An instruction depends on no register but its sources (10_state.md R23, derived by the spec): from two states that
agree on them, on the PC, the parameters and the bytes of memory, it faults alike or completes with the same PC, the
same destination value and the same bytes of memory. -/
def Obligations.OnlyTheSourceRegistersMatter : Prop :=
  ∀ (i : Instr) (s u : State), s.mem.wf → u.mem.wf →
    (∀ r ∈ sources i, s.readReg r = u.readReg r) → s.pc = u.pc → s.cfg = u.cfg →
    (∀ a, s.mem.read a = u.mem.read a) →
    (∀ f, exec i s = .fault f ↔ exec i u = .fault f) ∧
    (∀ t, exec i s = .next t → ∃ v, exec i u = .next v ∧ t.pc = v.pc ∧
      (∀ d, destination i = some d → t.readReg d = v.readReg d) ∧
      ∀ a, t.mem.read a = v.mem.read a)

/-- No instruction but a store changes a byte (20_memory.md R59; D5). -/
def Obligations.OnlyStoresChangeMemory : Prop :=
  ∀ (i : Instr) (s t : State), exec i s = .next t →
    (∀ a w, dataAccess s i ≠ some (.store, a, w)) → ∀ b, t.mem.read b = s.mem.read b

/-- No step changes the parameters (10_state.md R42; they are the model's own field, log 1). -/
def Obligations.StepsKeepTheParameters : Prop :=
  ∀ s t : State, step s = .next t → t.cfg = s.cfg

/-! ## Memory and the bus -/

/-- Rules R52, R53: on an admitted access a load returns the bytes, little-endian and zero-extended, and a store sets
byte k to bits 8k+7..8k of the value and changes no other byte, ignoring the value's upper bits. -/
def Obligations.BusMovesLittleEndianBytes : Prop :=
  ∀ (s : State) (k : AccessKind) (a : Word),
    (Admits s.cfg a 1 → busLoad s k a .w8 = .ok ((s.mem.read a.toNat).setWidth 32)) ∧
    (Admits s.cfg a 2 → busLoad s k a .w16 = .ok ((half s a.toNat).setWidth 32)) ∧
    (Admits s.cfg a 4 → busLoad s k a .w32 = .ok (word s a.toNat)) ∧
    (∀ (w : Width) (v : Word), s.mem.wf → Admits s.cfg a (byteCount w) → ∃ t, busStore s a w v = .ok t ∧
      (∀ j, j < byteCount w → t.mem.read (a.toNat + j) = v.extractLsb' (8 * j) 8) ∧
      (∀ b, (b < a.toNat ∨ a.toNat + byteCount w ≤ b) → t.mem.read b = s.mem.read b) ∧
      (∀ v', (∀ j, j < 8 * byteCount w → v'.getLsbD j = v.getLsbD j) → busStore s a w v' = .ok t))

/-- The bus refuses an access exactly when some byte of it lies outside the region or, with ALIGN_CHECK, its address
is no multiple of its size; it then reports the access (20_memory.md R51, R58; D5, D6). -/
def Obligations.BusRefusesExactlyTheInadmissible : Prop :=
  ∀ (s : State) (k : AccessKind) (a : Word) (w : Width) (v : Word),
    let ok := (∀ j, j < byteCount w → inRegion s.cfg (a.toNat + j)) ∧
      (s.cfg.alignCheck = true → a.toNat % byteCount w = 0)
    (¬ ok → busLoad s k a w = .error (.memoryFault k a w) ∧
      busStore s a w v = .error (.memoryFault .store a w)) ∧
    (ok → (∃ x, busLoad s k a w = .ok x) ∧ ∃ t, busStore s a w v = .ok t)

/-- Accesses of different widths see the same bytes (20_memory.md R55, derived by the spec from R52 and R53). -/
def Obligations.MixedWidthsSeeTheSameBytes : Prop :=
  ∀ (s t : State) (k : AccessKind) (a v : Word), s.mem.wf → s.cfg.valid →
    busStore s a .w32 v = .ok t →
    busLoad t k a .w8 = .ok ((v.extractLsb' 0 8).setWidth 32) ∧
    busLoad t k (a + 1#32) .w8 = .ok ((v.extractLsb' 8 8).setWidth 32) ∧
    busLoad t k a .w16 = .ok ((v.extractLsb' 0 16).setWidth 32) ∧
    busLoad t k (a + 2#32) .w16 = .ok ((v.extractLsb' 16 16).setWidth 32)

/-- The store-then-load round trip of 20_memory.md R63 (D27): after SW, an LW whose address in the state the store
left is the same completes with the stored value. -/
def Obligations.StoreThenLoadReturnsTheValue : Prop :=
  ∀ (s t : State) (rs2 rs1 rd rb : Reg) (imm imm' : BitVec 12), s.mem.wf →
    exec (.sw rs2 rs1 imm) s = .next t → address rb imm' t = address rs1 imm s →
    ∃ u, exec (.lw rd rb imm') t = .next u ∧ RegResult t u rd (s.readReg rs2) (t.pc + 4#32)

/-- Self-modifying code (20_memory.md R67; D19): after SW to the next instruction's address, the next step runs
the stored word. -/
def Obligations.NextFetchSeesTheStore : Prop :=
  ∀ (s t : State) (rs2 rs1 : Reg) (imm : BitVec 12), s.mem.wf →
    exec (.sw rs2 rs1 imm) s = .next t → address rs1 imm s = s.pc + 4#32 →
    step t = execute (s.readReg rs2) t

/-- Canonical memories with the same bytes are the same memory, so equal memories are equal data (the model's own
form, log 3). -/
def Obligations.CanonicalMemoryIsItsBytes : Prop :=
  ∀ m n : Memory, m.wf → n.wf → (∀ a, m.read a = n.read a) → m = n

/-! ## Reset, invariants, host -/

/-- Construction, for all parameters and every MEM_INIT (10_state.md R35, 70_reset_and_hazards.md R280; D4, D18): the
PC, the stack pointer, the other registers, and the memory untouched. `State.reset` is its instance at the sample
parameters, which are the model's choice (log 2, 3). -/
def Obligations.ConstructionGivesTheResetValues : Prop :=
  (∀ (c : Config) (m : Memory),
    (State.construct c m).pc = c.memBase ∧
    (State.construct c m).readReg 2#5 = BitVec.ofNat 32 (c.memBase.toNat + c.memSize) ∧
    (∀ r, r ≠ 2#5 → (State.construct c m).readReg r = 0#32) ∧
    (State.construct c m).mem = m) ∧
  State.reset = State.construct ⟨0x80000000#32, 0x10000, false⟩ []

/-- Rule R281: the first step after reset fetches the word at MEM_BASE, with no indirection. -/
def Obligations.FirstStepFetchesAtMemBase : Prop :=
  ∀ (c : Config) (m : Memory), let s := State.construct c m
    (Admits c c.memBase 4 → step s = execute (word s c.memBase.toNat) s) ∧
    (¬ Admits c c.memBase 4 → step s = .fault (.memoryFault .fetch c.memBase .w32))

/-- The reset stack pointer (70_reset_and_hazards.md R284, derived by the spec): a store at 0(sp) faults, and SW at
-4(sp) writes the region's last word. The first is stated for MEM_SIZE < 2^32: a region of all 2^32 bytes has
x2 = 0, an address it holds (log 27). The second needs a word in the region, and with ALIGN_CHECK an aligned top. -/
def Obligations.ResetStackPointerIsOnePastTheTop : Prop :=
  ∀ (c : Config) (m : Memory) (rs2 : Reg), c.valid → m.wf → let s := State.construct c m
    (c.memSize < 2 ^ 32 →
      exec (.sb rs2 2#5 0#12) s = .fault (.memoryFault .store (s.readReg 2#5) .w8) ∧
      exec (.sh rs2 2#5 0#12) s = .fault (.memoryFault .store (s.readReg 2#5) .w16) ∧
      exec (.sw rs2 2#5 0#12) s = .fault (.memoryFault .store (s.readReg 2#5) .w32)) ∧
    (4 ≤ c.memSize → (c.alignCheck = true → (c.memBase.toNat + c.memSize) % 4 = 0) →
      ∃ t, exec (.sw rs2 2#5 (BitVec.ofInt 12 (-4))) s = .next t ∧
        StoreResult s t (BitVec.ofNat 32 (c.memBase.toNat + c.memSize - 4)) 4 (s.readReg rs2))

/-- Construction from parameters that meet rule R8 and a canonical memory inside the region is sound; so is reset. -/
def Obligations.ConstructedStatesAreSound : Prop :=
  (∀ (c : Config) (m : Memory), c.valid → m.wf → Memory.within c m → (State.construct c m).Sound) ∧
  State.reset.Sound

/-- Every step from a sound state gives a sound state: the memory stays canonical and inside the region
(20_memory.md R50, R51), the storage behind x0 stays 0 (10_state.md R22), the parameters stay legal (00_scope.md R8). -/
def Obligations.StepKeepsStatesSound : Prop :=
  ∀ s t : State, s.Sound → step s = .next t → t.Sound

/-- An even PC stays even (10_state.md R29; D6): every jump target has bit 0 clear, JALR's by its mask and the others
because B and J offsets are even. -/
def Obligations.StepKeepsThePcEven : Prop :=
  ∀ s t : State, s.pc.getLsbD 0 = false → step s = .next t → t.pc.getLsbD 0 = false

/-- The HALT idiom (70_reset_and_hazards.md R288; D24): with the self-loop `JAL x0, 0` at the PC, every step completes
and leaves the state as it was, so the block runs on for any number of steps: it never stops on its own. -/
def Obligations.SelfLoopRunsForever : Prop :=
  ∀ s : State, Admits s.cfg s.pc 4 → word s s.pc.toNat = 0x0000006F#32 →
    step s = .next s ∧ ∀ k, s.runsFor k

/-- The host's actions between steps (10_state.md R40; D14): each has its effect and no other, a write of x0 is
discarded, memory is reached only through the bus, and a sound state stays sound. -/
def Obligations.HostActionsAreGatedAndSound : Prop :=
  (∀ (s : State) (v : Word), ∃ t, hostAct s (.writePc v) = .ok t ∧ PcResult s t v) ∧
  (∀ (s : State) (r : Reg) (v : Word), ∃ t, hostAct s (.writeReg r v) = .ok t ∧ RegResult s t r v s.pc) ∧
  (∀ (s : State) (a : Word) (w : Width) (v : Word), s.mem.wf →
    (Admits s.cfg a (byteCount w) → ∃ t, hostAct s (.store a w v) = .ok t ∧
      (∀ j, j < byteCount w → t.mem.read (a.toNat + j) = v.extractLsb' (8 * j) 8) ∧
      (∀ b, (b < a.toNat ∨ a.toNat + byteCount w ≤ b) → t.mem.read b = s.mem.read b) ∧
      (∀ r, t.readReg r = s.readReg r) ∧ t.pc = s.pc ∧ t.cfg = s.cfg) ∧
    (¬ Admits s.cfg a (byteCount w) → hostAct s (.store a w v) = .error (.memoryFault .store a w))) ∧
  (∀ (s t : State) (h : HostAction), s.Sound → hostAct s h = .ok t → t.Sound)

/-- A word placed where the next step fetches is the word the next step runs (the model's own probe, log 4), and
nothing but its four bytes changes. -/
def Obligations.PlacedWordIsTheNextToRun : Prop :=
  ∀ (s : State) (n : Nat), s.mem.wf → Admits s.cfg s.pc 4 → n < 2 ^ 32 →
    let t := s.withFetchWord 32 n
    step t = execute (BitVec.ofNat 32 n) t ∧
    t.pc = s.pc ∧ t.cfg = s.cfg ∧ (∀ r, t.readReg r = s.readReg r) ∧
    (∀ b, (b < s.pc.toNat ∨ s.pc.toNat + 4 ≤ b) → t.mem.read b = s.mem.read b)

/-- The observation's own record (10_state.md R34; D13; log 25): a call that reports a fault adds the report at the end
of the record and changes nothing else; a call that completes, an access of the host and a restart add nothing; over
any run of events every report stays; and the record has no part in what the block does. -/
def Obligations.EveryReportIsRecordedAndNoneIsCleared : Prop :=
  (∀ (o : Observed) (f : Fault), step o.state = .fault f → o.event .step = some ⟨o.state, o.reports ++ [f]⟩) ∧
  (∀ (o : Observed) (t : State), step o.state = .next t → o.event .step = some ⟨t, o.reports⟩) ∧
  (∀ (o : Observed) (w : Word) (f : Fault), execute w o.state = .fault f →
    o.event (.execute w) = some ⟨o.state, o.reports ++ [f]⟩) ∧
  (∀ (o : Observed) (w : Word) (t : State), execute w o.state = .next t →
    o.event (.execute w) = some ⟨t, o.reports⟩) ∧
  (∀ (o : Observed) (h : HostAction) (t : State), hostAct o.state h = .ok t →
    o.event (.act h) = some ⟨t, o.reports⟩) ∧
  (∀ (o : Observed) (h : HostAction) (f : Fault), hostAct o.state h = .error f → o.event (.act h) = some o) ∧
  (∀ o : Observed, o.event .restart = some ⟨State.construct o.state.cfg o.state.mem, o.reports⟩) ∧
  (∀ (o : Observed) (es : List HostEvent), ∃ p new, o.run es = some p ∧ p.reports = o.reports ++ new) ∧
  (∀ (s : State) (l m : List Fault) (es : List HostEvent),
    ((⟨s, l⟩ : Observed).run es).map Observed.state = ((⟨s, m⟩ : Observed).run es).map Observed.state)
end

