-- ==== Sys2Proof/Laws/Memory.lean ====
section
/-! SUPPORT. The laws of memory: a read after a write, and the canonical form under every write. -/

namespace Sys2Proof.Machine

@[simp] theorem read_nil (a : Nat) : Memory.read [] a = Memory.unlisted := rfl

theorem read_cons (c : Host.Cell) (m : Memory) (a : Nat) :
    Memory.read (c :: m) a = if c.1 = a then c.2 else Memory.read m a := rfl

/-- An address below every listed one reads as unlisted. -/
theorem read_of_forall_lt {m : Memory} {a : Nat} (h : ∀ c ∈ m, a < c.1) : m.read a = Memory.unlisted := by
  induction m with
  | nil => rfl
  | cons c m ih =>
    have hc := h c (by simp)
    rw [read_cons, if_neg (by omega)]
    exact ih fun d hd => h d (by simp [hd])

/-- The entries of a written memory are old entries or the new one. -/
theorem mem_write {m : Memory} {a : Nat} {v : Byte} {c : Host.Cell} (h : c ∈ m.write a v) :
    c ∈ m ∨ (c = (a, v) ∧ v ≠ Memory.unlisted) := by
  induction m with
  | nil =>
    unfold Memory.write at h
    split at h
    · simp at h
    · exact .inr ⟨List.mem_singleton.1 h, ‹_›⟩
  | cons d m ih =>
    unfold Memory.write at h
    split at h
    · rcases List.mem_cons.1 h with rfl | h
      · simp
      · rcases ih h with h | h
        · simp [h]
        · simp [h]
    · have keep : ∀ e, e ∈ (if d.1 = a then m else d :: m) → e ∈ d :: m := by
        intro e he; split at he <;> simp_all
      dsimp only at h
      split at h
      · exact .inl (keep c h)
      · rcases List.mem_cons.1 h with rfl | h
        · exact .inr ⟨rfl, ‹_›⟩
        · exact .inl (keep c h)

/-- Writing a byte keeps the canonical form. -/
theorem wf_write {m : Memory} (h : m.wf) (a : Nat) (v : Byte) : (m.write a v).wf := by
  refine ⟨?_, fun c hc => ?_⟩
  · obtain ⟨hs, -⟩ := h
    induction m with
    | nil => unfold Memory.write; split <;> simp
    | cons d m ih =>
      obtain ⟨hd, hm⟩ := List.pairwise_cons.1 hs
      unfold Memory.write
      split
      · refine List.pairwise_cons.2 ⟨fun c hc => ?_, ih hm⟩
        rcases mem_write hc with hc | ⟨rfl, -⟩
        · exact hd c hc
        · assumption
      · have hrest : (if d.1 = a then m else d :: m).Pairwise (fun c e => c.1 < e.1) := by split <;> assumption
        dsimp only
        split
        · exact hrest
        · refine List.pairwise_cons.2 ⟨fun c hc => ?_, hrest⟩
          split at hc
          · have := hd c hc; simp only; omega
          · rcases List.mem_cons.1 hc with rfl | hc
            · simp only; omega
            · have := hd c hc; simp only; omega
  · rcases mem_write hc with hc | ⟨rfl, hv⟩
    · exact h.2 c hc
    · exact hv

/-- A byte reads back as written. -/
theorem read_write_same {m : Memory} (h : m.wf) (a : Nat) (v : Byte) : (m.write a v).read a = v := by
  obtain ⟨hs, -⟩ := h
  induction m with
  | nil => unfold Memory.write; split <;> simp_all [read_cons]
  | cons d m ih =>
    obtain ⟨hd, hm⟩ := List.pairwise_cons.1 hs
    unfold Memory.write
    split
    · rw [read_cons, if_neg (by omega)]; exact ih hm
    · dsimp only
      split
      · next hv =>
        subst hv
        apply read_of_forall_lt
        intro c hc
        split at hc
        · have := hd c hc; omega
        · rcases List.mem_cons.1 hc with rfl | hc
          · omega
          · have := hd c hc; omega
      · simp [read_cons]

/-- Every other byte reads as before. -/
theorem read_write_other (m : Memory) {a b : Nat} (v : Byte) (h : b ≠ a) : (m.write a v).read b = m.read b := by
  induction m with
  | nil =>
    unfold Memory.write
    split
    · rfl
    · rw [read_cons, if_neg (by simpa using h.symm)]
  | cons d m ih =>
    have hrest : Memory.read (if d.1 = a then m else d :: m) b = Memory.read (d :: m) b := by
      split
      · rw [read_cons, if_neg (by omega)]
      · rfl
    unfold Memory.write
    split
    · rw [read_cons, read_cons, ih]
    · dsimp only
      split
      · exact hrest
      · rw [read_cons, if_neg (by simpa using h.symm), hrest]

/-- A read after a write, in one equation. -/
theorem read_write {m : Memory} (h : m.wf) (a b : Nat) (v : Byte) :
    (m.write a v).read b = if b = a then v else m.read b := by
  split
  · next e => subst e; exact read_write_same h b v
  · next e => exact read_write_other m v e

/-! ## The bytes of an access -/

/-- A bus write keeps the canonical form. -/
theorem wf_writeLE {m : Memory} (h : m.wf) (a : Nat) (v : Word) (w : Width) : (m.writeLE a v w).wf := by
  cases w <;> simp only [Memory.writeLE]
  · exact wf_write h _ _
  · exact wf_write (wf_write h _ _) _ _
  · exact wf_write (wf_write (wf_write (wf_write h _ _) _ _) _ _) _ _

/-- The entries of a memory after a bus write are old entries or lie in the access. -/
theorem mem_writeLE {m : Memory} {a : Nat} {v : Word} {w : Width} {c : Host.Cell} (h : c ∈ m.writeLE a v w) :
    c ∈ m ∨ (a ≤ c.1 ∧ c.1 < a + w.bytes) := by
  have one : ∀ {m : Memory} {b : Nat} {x : Byte}, c ∈ m.write b x → c ∈ m ∨ c.1 = b := by
    intro m b x hc
    rcases mem_write hc with hc | ⟨rfl, -⟩
    · exact .inl hc
    · exact .inr rfl
  cases w <;> simp only [Memory.writeLE, Width.bytes] at h ⊢
  · rcases one h with h | h
    · exact .inl h
    · right; omega
  · rcases one h with h | h
    · rcases one h with h | h
      · exact .inl h
      · right; omega
    · right; omega
  · rcases one h with h | h
    · rcases one h with h | h
      · rcases one h with h | h
        · rcases one h with h | h
          · exact .inl h
          · right; omega
        · right; omega
      · right; omega
    · right; omega

/-- Byte `k` of the access holds byte `k` of the value (rule R53). -/
theorem read_writeLE_inside {m : Memory} (h : m.wf) (a : Nat) (v : Word) (w : Width) {k : Nat} (hk : k < w.bytes) :
    (m.writeLE a v w).read (a + k) = v.byte k := by
  have h1 := wf_write h a (v.byte 0)
  have h2 := wf_write h1 (a + 1) (v.byte 1)
  have h3 := wf_write h2 (a + 2) (v.byte 2)
  cases w <;> simp only [Memory.writeLE, Width.bytes] at hk ⊢
  · obtain rfl : k = 0 := by omega
    simp [read_write h]
  · obtain rfl | rfl : k = 0 ∨ k = 1 := by omega
    all_goals simp [read_write h, read_write h1]
  · obtain rfl | rfl | rfl | rfl : k = 0 ∨ k = 1 ∨ k = 2 ∨ k = 3 := by omega
    all_goals simp [read_write h, read_write h1, read_write h2, read_write h3]

/-- Every byte outside the access reads as before (rule R53). -/
theorem read_writeLE_outside (m : Memory) (a : Nat) (v : Word) (w : Width) {b : Nat}
    (hb : b < a ∨ a + w.bytes ≤ b) : (m.writeLE a v w).read b = m.read b := by
  cases w <;> simp only [Memory.writeLE, Width.bytes] at hb ⊢
  · rw [read_write_other _ _ (by omega)]
  · rw [read_write_other _ _ (by omega), read_write_other _ _ (by omega)]
  · rw [read_write_other _ _ (by omega), read_write_other _ _ (by omega), read_write_other _ _ (by omega),
      read_write_other _ _ (by omega)]

/-- The four bytes of a word, highest first, make the word (rules R52, R53). -/
theorem bytes_append (v : Word) : v.byte 3 ++ v.byte 2 ++ v.byte 1 ++ v.byte 0 = v := by
  apply BitVec.eq_of_getLsbD_eq
  intro i hi
  simp only [Word.byte, BitVec.getLsbD_append, BitVec.getLsbD_extractLsb']
  have e (k : Nat) (h : i - k < 8 ∧ k ≤ i) : (decide (i - k < 8) && v.getLsbD (k + (i - k))) = v.getLsbD i := by
    simp [h.1, Nat.add_sub_cancel' h.2]
  split
  · simpa using e 0 (by omega)
  · split
    · simpa using e 8 (by omega)
    · split
      · simpa [Nat.sub_sub] using e 16 (by omega)
      · simpa [Nat.sub_sub] using e 24 (by omega)

end Sys2Proof.Machine
end

