-- ==== Sys2Proof/Laws/State.lean ====
section
/-! SUPPORT. One lemma per field per update of the state, and the register ports over each update. -/

namespace Sys2Proof.Machine

/-! ## `setPc` -/

@[simp] theorem setPc_pc (s : State) (v : Word) : (s.setPc v).pc = v := rfl
@[simp] theorem setPc_regs (s : State) (v : Word) : (s.setPc v).regs = s.regs := rfl
@[simp] theorem setPc_mem (s : State) (v : Word) : (s.setPc v).mem = s.mem := rfl
@[simp] theorem setPc_cfg (s : State) (v : Word) : (s.setPc v).cfg = s.cfg := rfl
@[simp] theorem readReg_setPc (s : State) (v : Word) (r : Reg) : (s.setPc v).readReg r = s.readReg r := rfl

/-! ## A new memory -/

@[simp] theorem withMem_pc (s : State) (m : Memory) : ({ s with mem := m } : State).pc = s.pc := rfl
@[simp] theorem withMem_regs (s : State) (m : Memory) : ({ s with mem := m } : State).regs = s.regs := rfl
@[simp] theorem withMem_mem (s : State) (m : Memory) : ({ s with mem := m } : State).mem = m := rfl
@[simp] theorem withMem_cfg (s : State) (m : Memory) : ({ s with mem := m } : State).cfg = s.cfg := rfl
@[simp] theorem readReg_withMem (s : State) (m : Memory) (r : Reg) :
    ({ s with mem := m } : State).readReg r = s.readReg r := rfl

/-! ## `writeReg` -/

@[simp] theorem writeReg_zero (s : State) (v : Word) : s.writeReg 0#5 v = s := if_pos rfl

@[simp] theorem writeReg_pc (s : State) (r : Reg) (v : Word) : (s.writeReg r v).pc = s.pc := by
  unfold State.writeReg; split <;> rfl

@[simp] theorem writeReg_mem (s : State) (r : Reg) (v : Word) : (s.writeReg r v).mem = s.mem := by
  unfold State.writeReg; split <;> rfl

@[simp] theorem writeReg_cfg (s : State) (r : Reg) (v : Word) : (s.writeReg r v).cfg = s.cfg := by
  unfold State.writeReg; split <;> rfl

/-- A read of x0 is 0 (rule R21). -/
@[simp] theorem readReg_zero (s : State) : s.readReg 0#5 = 0#32 := if_pos rfl

/-- The written register reads the written value, unless it is x0 (rules R22, R24). -/
theorem readReg_writeReg_same (s : State) (r : Reg) (v : Word) (h : r ≠ 0#5) :
    (s.writeReg r v).readReg r = v := by
  simp [State.readReg, State.writeReg, h]

/-- Every other register reads as before (rule R22). -/
theorem readReg_writeReg_other (s : State) (r q : Reg) (v : Word) (h : q ≠ r) :
    (s.writeReg r v).readReg q = s.readReg q := by
  unfold State.writeReg State.readReg
  split
  · rfl
  · split
    · rfl
    · have hne : r.toNat ≠ q.toNat := fun e => h (BitVec.eq_of_toNat_eq e.symm)
      simp [hne]

/-- A read after a write, in one equation. -/
theorem readReg_writeReg (s : State) (r q : Reg) (v : Word) :
    (s.writeReg r v).readReg q = if q = r ∧ r ≠ 0#5 then v else s.readReg q := by
  by_cases hq : q = r
  · subst hq
    by_cases h0 : q = 0#5
    · subst h0; simp
    · simp [h0, readReg_writeReg_same]
  · simp [hq, readReg_writeReg_other]

/-- The storage behind x0 is never written (rule R22). -/
@[simp] theorem writeReg_slot_zero (s : State) (r : Reg) (v : Word) : (s.writeReg r v).regs[0] = s.regs[0] := by
  unfold State.writeReg
  split
  · rfl
  · next h =>
    have : r.toNat ≠ 0 := fun e => h (BitVec.eq_of_toNat_eq (by simpa using e))
    simp [this]

/-! ## Construction -/

@[simp] theorem construct_pc (c : Config) (m : Memory) : (State.construct c m).pc = c.memBase := rfl
@[simp] theorem construct_mem (c : Config) (m : Memory) : (State.construct c m).mem = m := rfl
@[simp] theorem construct_cfg (c : Config) (m : Memory) : (State.construct c m).cfg = c := rfl

end Sys2Proof.Machine
end

