-- ==== Sys2Proof/Laws/Bus.lean ====
section
/-! SUPPORT. What the bus can answer, and what each shared operation can do: one lemma per operation, which the
proofs about instructions cite. -/

namespace Sys2Proof.Machine

/-- `admitted` as the formula of rule R51. -/
theorem admitted_iff (c : Config) (a : Word) (n : Nat) :
    admitted c a n = true ↔
      c.memBase.toNat ≤ a.toNat ∧ a.toNat + n ≤ c.memBase.toNat + c.memSize
        ∧ (c.alignCheck = true → a.toNat % n = 0) := by
  unfold admitted
  cases c.alignCheck <;> simp [and_assoc]

/-- A load the bus answers is admitted and returns the bytes; a refused one reports the access. -/
theorem busLoad_ok_iff (s : State) (k : AccessKind) (a : Word) (w : Width) (v : Word) :
    busLoad s k a w = .ok v ↔ admitted s.cfg a w.bytes = true ∧ v = s.mem.readLE a.toNat w := by
  cases h : admitted s.cfg a w.bytes <;> simp [busLoad, h, eq_comm]

theorem busLoad_error_iff (s : State) (k : AccessKind) (a : Word) (w : Width) (f : Fault) :
    busLoad s k a w = .error f ↔ admitted s.cfg a w.bytes = false ∧ f = .memoryFault k a w := by
  cases h : admitted s.cfg a w.bytes <;> simp [busLoad, h, eq_comm]

/-- A store the bus accepts is admitted and changes the memory alone; a refused one reports the access. -/
theorem busStore_ok_iff (s t : State) (a : Word) (w : Width) (v : Word) :
    busStore s a w v = .ok t ↔
      admitted s.cfg a w.bytes = true ∧ t = { s with mem := s.mem.writeLE a.toNat v w } := by
  cases h : admitted s.cfg a w.bytes <;> simp [busStore, h, eq_comm]

theorem busStore_error_iff (s : State) (a : Word) (w : Width) (v : Word) (f : Fault) :
    busStore s a w v = .error f ↔ admitted s.cfg a w.bytes = false ∧ f = .memoryFault .store a w := by
  cases h : admitted s.cfg a w.bytes <;> simp [busStore, h, eq_comm]

/-- A word stored through the bus is what a word load of the same address returns (rule R63). -/
theorem readLE_writeLE_word {m : Memory} (h : m.wf) (a : Nat) (v : Word) :
    (m.writeLE a v .w32).readLE a .w32 = v := by
  have r := fun k (hk : k < 4) => read_writeLE_inside h a v .w32 (k := k) hk
  have r0 := r 0 (by omega)
  simp only [Nat.add_zero] at r0
  unfold Memory.readLE
  rw [r 3 (by omega), r 2 (by omega), r 1 (by omega), r0]
  exact bytes_append v

/-! ## The shared operations -/

/-- A commit with the write enable on always completes, with this state. -/
theorem commitReg_eq (s : State) (rd : Reg) (wb : WbSelect) (next : PcSelect) :
    commitReg s rd wb next = .next ((s.writeReg rd (wbMux s.pc wb)).setPc (pcMux s.pc next)) := rfl

/-- A commit with the write enable off always completes, with this state. -/
theorem commitNone_eq (s : State) (next : PcSelect) :
    commitNone s next = .next (s.setPc (pcMux s.pc next)) := rfl

/-- What a load does: admitted, it commits the extended value; refused, it faults. -/
theorem loadWith_eq (w : Width) (e : LoadExt) (rd rs1 : Reg) (imm : BitVec 12) (s : State) :
    loadWith w e rd rs1 imm s =
      if admitted s.cfg (s.readReg rs1 + imm.signExtend 32) w.bytes then
        commitReg s rd (.load (extendLoad w e (s.mem.readLE (s.readReg rs1 + imm.signExtend 32).toNat w))) .seq
      else .fault (.memoryFault .load (s.readReg rs1 + imm.signExtend 32) w) := by
  unfold loadWith busLoad effAddr immI raise
  cases admitted s.cfg (s.readReg rs1 + imm.signExtend 32) w.bytes <;> rfl

/-- What a store does: admitted, it writes the bytes and advances; refused, it faults. -/
theorem storeWith_eq (w : Width) (rs2 rs1 : Reg) (imm : BitVec 12) (s : State) :
    storeWith w rs2 rs1 imm s =
      if admitted s.cfg (s.readReg rs1 + imm.signExtend 32) w.bytes then
        commitNone { s with
          mem := s.mem.writeLE (s.readReg rs1 + imm.signExtend 32).toNat (s.readReg rs2) w } .seq
      else .fault (.memoryFault .store (s.readReg rs1 + imm.signExtend 32) w) := by
  unfold storeWith busStore effAddr immS raise
  cases admitted s.cfg (s.readReg rs1 + imm.signExtend 32) w.bytes <;> rfl

/-! ## Fetch and decode -/

/-- The instruction word is the four bytes at the PC (rules R54, R121). -/
theorem fetch_eq (s : State) :
    fetch s = if admitted s.cfg s.pc 4 then .ok (s.mem.readLE s.pc.toNat .w32)
      else .error (.memoryFault .fetch s.pc .w32) := rfl

/-- The decode phase answers the decoder's instruction. -/
theorem decodePhase_ok_iff (w : Word) (i : Instr) : decodePhase w = .ok i ↔ decode w = .ok i := by
  unfold decodePhase; cases decode w <;> simp

/-- The decode phase reports the word the decoder rejects. -/
theorem decodePhase_error_iff (w : Word) (f : Fault) :
    decodePhase w = .error f ↔ (∃ r, decode w = .error r) ∧ f = .illegalInstruction w := by
  unfold decodePhase; cases decode w <;> simp [eq_comm]

end Sys2Proof.Machine
end

