-- ==== Sys2Proof/Laws/Decode.lean ====
section
/-! SUPPORT. The fields of an encoded word, format by format, and what a masked comparison of the opcode table says
about the fields. The decoder's and the encoder's proofs cite these and unfold neither. -/

namespace Sys2Proof

/-! ## Fields of each format -/

@[simp] theorem opcode_encR (f7 : BitVec 7) (r2 r1 : Reg) (f3 : BitVec 3) (d : Reg) (op : BitVec 7) :
    Inst.opcode (encR f7 r2 r1 f3 d op) = op := by
  apply BitVec.eq_of_getLsbD_eq
  intro i hi
  simp only [Inst.opcode, encR, BitVec.getLsbD_extractLsb', BitVec.getLsbD_append]
  interval_cases i <;> simp

@[simp] theorem rd_encR (f7 : BitVec 7) (r2 r1 : Reg) (f3 : BitVec 3) (d : Reg) (op : BitVec 7) :
    Inst.rd (encR f7 r2 r1 f3 d op) = d := by
  apply BitVec.eq_of_getLsbD_eq
  intro i hi
  simp only [Inst.rd, encR, BitVec.getLsbD_extractLsb', BitVec.getLsbD_append]
  interval_cases i <;> simp

@[simp] theorem funct3_encR (f7 : BitVec 7) (r2 r1 : Reg) (f3 : BitVec 3) (d : Reg) (op : BitVec 7) :
    Inst.funct3 (encR f7 r2 r1 f3 d op) = f3 := by
  apply BitVec.eq_of_getLsbD_eq
  intro i hi
  simp only [Inst.funct3, encR, BitVec.getLsbD_extractLsb', BitVec.getLsbD_append]
  interval_cases i <;> simp

@[simp] theorem rs1_encR (f7 : BitVec 7) (r2 r1 : Reg) (f3 : BitVec 3) (d : Reg) (op : BitVec 7) :
    Inst.rs1 (encR f7 r2 r1 f3 d op) = r1 := by
  apply BitVec.eq_of_getLsbD_eq
  intro i hi
  simp only [Inst.rs1, encR, BitVec.getLsbD_extractLsb', BitVec.getLsbD_append]
  interval_cases i <;> simp

@[simp] theorem rs2_encR (f7 : BitVec 7) (r2 r1 : Reg) (f3 : BitVec 3) (d : Reg) (op : BitVec 7) :
    Inst.rs2 (encR f7 r2 r1 f3 d op) = r2 := by
  apply BitVec.eq_of_getLsbD_eq
  intro i hi
  simp only [Inst.rs2, encR, BitVec.getLsbD_extractLsb', BitVec.getLsbD_append]
  interval_cases i <;> simp

@[simp] theorem shamt_encR (f7 : BitVec 7) (r2 r1 : Reg) (f3 : BitVec 3) (d : Reg) (op : BitVec 7) :
    Inst.shamt (encR f7 r2 r1 f3 d op) = r2 := by
  apply BitVec.eq_of_getLsbD_eq
  intro i hi
  simp only [Inst.shamt, encR, BitVec.getLsbD_extractLsb', BitVec.getLsbD_append]
  interval_cases i <;> simp

@[simp] theorem funct7_encR (f7 : BitVec 7) (r2 r1 : Reg) (f3 : BitVec 3) (d : Reg) (op : BitVec 7) :
    Inst.funct7 (encR f7 r2 r1 f3 d op) = f7 := by
  apply BitVec.eq_of_getLsbD_eq
  intro i hi
  simp only [Inst.funct7, encR, BitVec.getLsbD_extractLsb', BitVec.getLsbD_append]
  interval_cases i <;> simp

@[simp] theorem opcode_encI (imm : BitVec 12) (r1 : Reg) (f3 : BitVec 3) (d : Reg) (op : BitVec 7) :
    Inst.opcode (encI imm r1 f3 d op) = op := by
  apply BitVec.eq_of_getLsbD_eq
  intro i hi
  simp only [Inst.opcode, encI, BitVec.getLsbD_extractLsb', BitVec.getLsbD_append]
  interval_cases i <;> simp

@[simp] theorem rd_encI (imm : BitVec 12) (r1 : Reg) (f3 : BitVec 3) (d : Reg) (op : BitVec 7) :
    Inst.rd (encI imm r1 f3 d op) = d := by
  apply BitVec.eq_of_getLsbD_eq
  intro i hi
  simp only [Inst.rd, encI, BitVec.getLsbD_extractLsb', BitVec.getLsbD_append]
  interval_cases i <;> simp

@[simp] theorem funct3_encI (imm : BitVec 12) (r1 : Reg) (f3 : BitVec 3) (d : Reg) (op : BitVec 7) :
    Inst.funct3 (encI imm r1 f3 d op) = f3 := by
  apply BitVec.eq_of_getLsbD_eq
  intro i hi
  simp only [Inst.funct3, encI, BitVec.getLsbD_extractLsb', BitVec.getLsbD_append]
  interval_cases i <;> simp

@[simp] theorem rs1_encI (imm : BitVec 12) (r1 : Reg) (f3 : BitVec 3) (d : Reg) (op : BitVec 7) :
    Inst.rs1 (encI imm r1 f3 d op) = r1 := by
  apply BitVec.eq_of_getLsbD_eq
  intro i hi
  simp only [Inst.rs1, encI, BitVec.getLsbD_extractLsb', BitVec.getLsbD_append]
  interval_cases i <;> simp

@[simp] theorem uimm_encI (imm : BitVec 12) (r1 : Reg) (f3 : BitVec 3) (d : Reg) (op : BitVec 7) :
    Inst.uimm (encI imm r1 f3 d op) = r1 := by
  apply BitVec.eq_of_getLsbD_eq
  intro i hi
  simp only [Inst.uimm, encI, BitVec.getLsbD_extractLsb', BitVec.getLsbD_append]
  interval_cases i <;> simp

@[simp] theorem imm12I_encI (imm : BitVec 12) (r1 : Reg) (f3 : BitVec 3) (d : Reg) (op : BitVec 7) :
    Inst.imm12I (encI imm r1 f3 d op) = imm := by
  apply BitVec.eq_of_getLsbD_eq
  intro i hi
  simp only [Inst.imm12I, encI, BitVec.getLsbD_extractLsb', BitVec.getLsbD_append]
  interval_cases i <;> simp

@[simp] theorem csr_encI (imm : BitVec 12) (r1 : Reg) (f3 : BitVec 3) (d : Reg) (op : BitVec 7) :
    Inst.csr (encI imm r1 f3 d op) = imm := by
  apply BitVec.eq_of_getLsbD_eq
  intro i hi
  simp only [Inst.csr, encI, BitVec.getLsbD_extractLsb', BitVec.getLsbD_append]
  interval_cases i <;> simp

@[simp] theorem opcode_encS (imm : BitVec 12) (r2 r1 : Reg) (f3 : BitVec 3) (op : BitVec 7) :
    Inst.opcode (encS imm r2 r1 f3 op) = op := by
  apply BitVec.eq_of_getLsbD_eq
  intro i hi
  simp only [Inst.opcode, encS, BitVec.getLsbD_extractLsb', BitVec.getLsbD_append]
  interval_cases i <;> simp

@[simp] theorem funct3_encS (imm : BitVec 12) (r2 r1 : Reg) (f3 : BitVec 3) (op : BitVec 7) :
    Inst.funct3 (encS imm r2 r1 f3 op) = f3 := by
  apply BitVec.eq_of_getLsbD_eq
  intro i hi
  simp only [Inst.funct3, encS, BitVec.getLsbD_extractLsb', BitVec.getLsbD_append]
  interval_cases i <;> simp

@[simp] theorem rs1_encS (imm : BitVec 12) (r2 r1 : Reg) (f3 : BitVec 3) (op : BitVec 7) :
    Inst.rs1 (encS imm r2 r1 f3 op) = r1 := by
  apply BitVec.eq_of_getLsbD_eq
  intro i hi
  simp only [Inst.rs1, encS, BitVec.getLsbD_extractLsb', BitVec.getLsbD_append]
  interval_cases i <;> simp

@[simp] theorem rs2_encS (imm : BitVec 12) (r2 r1 : Reg) (f3 : BitVec 3) (op : BitVec 7) :
    Inst.rs2 (encS imm r2 r1 f3 op) = r2 := by
  apply BitVec.eq_of_getLsbD_eq
  intro i hi
  simp only [Inst.rs2, encS, BitVec.getLsbD_extractLsb', BitVec.getLsbD_append]
  interval_cases i <;> simp

@[simp] theorem imm12S_encS (imm : BitVec 12) (r2 r1 : Reg) (f3 : BitVec 3) (op : BitVec 7) :
    Inst.imm12S (encS imm r2 r1 f3 op) = imm := by
  apply BitVec.eq_of_getLsbD_eq
  intro i hi
  simp only [Inst.imm12S, encS, BitVec.getLsbD_extractLsb', BitVec.getLsbD_append]
  interval_cases i <;> simp

@[simp] theorem opcode_encB (off : BitVec 13) (r2 r1 : Reg) (f3 : BitVec 3) (op : BitVec 7) :
    Inst.opcode (encB off r2 r1 f3 op) = op := by
  apply BitVec.eq_of_getLsbD_eq
  intro i hi
  simp only [Inst.opcode, encB, BitVec.getLsbD_extractLsb', BitVec.getLsbD_append]
  interval_cases i <;> simp

@[simp] theorem funct3_encB (off : BitVec 13) (r2 r1 : Reg) (f3 : BitVec 3) (op : BitVec 7) :
    Inst.funct3 (encB off r2 r1 f3 op) = f3 := by
  apply BitVec.eq_of_getLsbD_eq
  intro i hi
  simp only [Inst.funct3, encB, BitVec.getLsbD_extractLsb', BitVec.getLsbD_append]
  interval_cases i <;> simp

@[simp] theorem rs1_encB (off : BitVec 13) (r2 r1 : Reg) (f3 : BitVec 3) (op : BitVec 7) :
    Inst.rs1 (encB off r2 r1 f3 op) = r1 := by
  apply BitVec.eq_of_getLsbD_eq
  intro i hi
  simp only [Inst.rs1, encB, BitVec.getLsbD_extractLsb', BitVec.getLsbD_append]
  interval_cases i <;> simp

@[simp] theorem rs2_encB (off : BitVec 13) (r2 r1 : Reg) (f3 : BitVec 3) (op : BitVec 7) :
    Inst.rs2 (encB off r2 r1 f3 op) = r2 := by
  apply BitVec.eq_of_getLsbD_eq
  intro i hi
  simp only [Inst.rs2, encB, BitVec.getLsbD_extractLsb', BitVec.getLsbD_append]
  interval_cases i <;> simp

@[simp] theorem off13B_encB (off : BitVec 13) (r2 r1 : Reg) (f3 : BitVec 3) (op : BitVec 7) (h : evenOffset off = true) :
    Inst.off13B (encB off r2 r1 f3 op) = off := by
  apply BitVec.eq_of_getLsbD_eq
  intro i hi
  simp [evenOffset] at h
  simp only [Inst.off13B, encB, BitVec.getLsbD_extractLsb', BitVec.getLsbD_append]
  interval_cases i <;> simp [h]

@[simp] theorem opcode_encU (imm : BitVec 20) (d : Reg) (op : BitVec 7) :
    Inst.opcode (encU imm d op) = op := by
  apply BitVec.eq_of_getLsbD_eq
  intro i hi
  simp only [Inst.opcode, encU, BitVec.getLsbD_extractLsb', BitVec.getLsbD_append]
  interval_cases i <;> simp

@[simp] theorem rd_encU (imm : BitVec 20) (d : Reg) (op : BitVec 7) :
    Inst.rd (encU imm d op) = d := by
  apply BitVec.eq_of_getLsbD_eq
  intro i hi
  simp only [Inst.rd, encU, BitVec.getLsbD_extractLsb', BitVec.getLsbD_append]
  interval_cases i <;> simp

@[simp] theorem imm20U_encU (imm : BitVec 20) (d : Reg) (op : BitVec 7) :
    Inst.imm20U (encU imm d op) = imm := by
  apply BitVec.eq_of_getLsbD_eq
  intro i hi
  simp only [Inst.imm20U, encU, BitVec.getLsbD_extractLsb', BitVec.getLsbD_append]
  interval_cases i <;> simp

@[simp] theorem opcode_encJ (off : BitVec 21) (d : Reg) (op : BitVec 7) :
    Inst.opcode (encJ off d op) = op := by
  apply BitVec.eq_of_getLsbD_eq
  intro i hi
  simp only [Inst.opcode, encJ, BitVec.getLsbD_extractLsb', BitVec.getLsbD_append]
  interval_cases i <;> simp

@[simp] theorem rd_encJ (off : BitVec 21) (d : Reg) (op : BitVec 7) :
    Inst.rd (encJ off d op) = d := by
  apply BitVec.eq_of_getLsbD_eq
  intro i hi
  simp only [Inst.rd, encJ, BitVec.getLsbD_extractLsb', BitVec.getLsbD_append]
  interval_cases i <;> simp

@[simp] theorem off21J_encJ (off : BitVec 21) (d : Reg) (op : BitVec 7) (h : evenOffset off = true) :
    Inst.off21J (encJ off d op) = off := by
  apply BitVec.eq_of_getLsbD_eq
  intro i hi
  simp [evenOffset] at h
  simp only [Inst.off21J, encJ, BitVec.getLsbD_extractLsb', BitVec.getLsbD_append]
  interval_cases i <;> simp [h]

@[simp] theorem fm_encI (a b c : BitVec 4) (r1 : Reg) (f3 : BitVec 3) (d : Reg) (op : BitVec 7) :
    Inst.fm (encI (a ++ b ++ c) r1 f3 d op) = a := by
  apply BitVec.eq_of_getLsbD_eq
  intro i hi
  simp only [Inst.fm, encI, BitVec.getLsbD_extractLsb', BitVec.getLsbD_append]
  interval_cases i <;> simp

@[simp] theorem pred_encI (a b c : BitVec 4) (r1 : Reg) (f3 : BitVec 3) (d : Reg) (op : BitVec 7) :
    Inst.pred (encI (a ++ b ++ c) r1 f3 d op) = b := by
  apply BitVec.eq_of_getLsbD_eq
  intro i hi
  simp only [Inst.pred, encI, BitVec.getLsbD_extractLsb', BitVec.getLsbD_append]
  interval_cases i <;> simp

@[simp] theorem succ_encI (a b c : BitVec 4) (r1 : Reg) (f3 : BitVec 3) (d : Reg) (op : BitVec 7) :
    Inst.succ (encI (a ++ b ++ c) r1 f3 d op) = c := by
  apply BitVec.eq_of_getLsbD_eq
  intro i hi
  simp only [Inst.succ, encI, BitVec.getLsbD_extractLsb', BitVec.getLsbD_append]
  interval_cases i <;> simp

/-! ## A word is the encoding of its fields -/

/-- Bit 0 of a branch offset is the constant 0 (R86). -/
theorem evenOffset_off13B (w : Word) : evenOffset (Inst.off13B w) = true := by
  simp only [evenOffset, Inst.off13B, BitVec.getLsbD_append]
  simp

/-- Bit 0 of a jump offset is the constant 0 (R88). -/
theorem evenOffset_off21J (w : Word) : evenOffset (Inst.off21J w) = true := by
  simp only [evenOffset, Inst.off21J, BitVec.getLsbD_append]
  simp

theorem encR_fields (w : Word) : encR (Inst.funct7 w) (Inst.rs2 w) (Inst.rs1 w) (Inst.funct3 w) (Inst.rd w) (Inst.opcode w) = w := by
  apply BitVec.eq_of_getLsbD_eq
  intro i hi
  simp only [encR, Inst.funct7, Inst.rs2, Inst.rs1, Inst.funct3, Inst.rd, Inst.opcode, BitVec.getLsbD_append, BitVec.getLsbD_extractLsb']
  interval_cases i <;> simp

theorem encI_fields (w : Word) : encI (Inst.imm12I w) (Inst.rs1 w) (Inst.funct3 w) (Inst.rd w) (Inst.opcode w) = w := by
  apply BitVec.eq_of_getLsbD_eq
  intro i hi
  simp only [encI, Inst.imm12I, Inst.rs1, Inst.funct3, Inst.rd, Inst.opcode, BitVec.getLsbD_append, BitVec.getLsbD_extractLsb']
  interval_cases i <;> simp

theorem encS_fields (w : Word) : encS (Inst.imm12S w) (Inst.rs2 w) (Inst.rs1 w) (Inst.funct3 w) (Inst.opcode w) = w := by
  apply BitVec.eq_of_getLsbD_eq
  intro i hi
  simp only [encS, Inst.imm12S, Inst.rs2, Inst.rs1, Inst.funct3, Inst.opcode, BitVec.getLsbD_append, BitVec.getLsbD_extractLsb']
  interval_cases i <;> simp

theorem encB_fields (w : Word) : encB (Inst.off13B w) (Inst.rs2 w) (Inst.rs1 w) (Inst.funct3 w) (Inst.opcode w) = w := by
  apply BitVec.eq_of_getLsbD_eq
  intro i hi
  simp only [encB, Inst.off13B, Inst.rs2, Inst.rs1, Inst.funct3, Inst.opcode, BitVec.getLsbD_append, BitVec.getLsbD_extractLsb']
  interval_cases i <;> simp

theorem encU_fields (w : Word) : encU (Inst.imm20U w) (Inst.rd w) (Inst.opcode w) = w := by
  apply BitVec.eq_of_getLsbD_eq
  intro i hi
  simp only [encU, Inst.imm20U, Inst.rd, Inst.opcode, BitVec.getLsbD_append, BitVec.getLsbD_extractLsb']
  interval_cases i <;> simp

theorem encJ_fields (w : Word) : encJ (Inst.off21J w) (Inst.rd w) (Inst.opcode w) = w := by
  apply BitVec.eq_of_getLsbD_eq
  intro i hi
  simp only [encJ, Inst.off21J, Inst.rd, Inst.opcode, BitVec.getLsbD_append, BitVec.getLsbD_extractLsb']
  interval_cases i <;> simp

/-- The R-format words that differ in funct7 alone agree below bit 25. -/
theorem encR_and_low25 (f7 g7 : BitVec 7) (r2 r1 : Reg) (f3 : BitVec 3) (d : Reg) (op : BitVec 7) :
    encR f7 r2 r1 f3 d op &&& 0x01FFFFFF#32 = encR g7 r2 r1 f3 d op &&& 0x01FFFFFF#32 := by
  apply BitVec.eq_of_getLsbD_eq
  intro i hi
  simp only [encR, BitVec.getLsbD_and, BitVec.getLsbD_append]
  interval_cases i <;> simp

/-- The I-format words that differ in funct3 alone agree outside bits 14:12. -/
theorem encI_and_notFunct3 (imm : BitVec 12) (r1 : Reg) (f3 g3 : BitVec 3) (d : Reg) (op : BitVec 7) :
    encI imm r1 f3 d op &&& 0xFFFF8FFF#32 = encI imm r1 g3 d op &&& 0xFFFF8FFF#32 := by
  apply BitVec.eq_of_getLsbD_eq
  intro i hi
  simp only [encI, BitVec.getLsbD_and, BitVec.getLsbD_append]
  interval_cases i <;> simp

/-- FENCE's three fields are the twelve bits of the immediate's place. -/
theorem fence_fields (w : Word) : Inst.fm w ++ Inst.pred w ++ Inst.succ w = Inst.imm12I w := by
  apply BitVec.eq_of_getLsbD_eq
  intro i hi
  simp only [Inst.fm, Inst.pred, Inst.succ, Inst.imm12I, BitVec.getLsbD_append, BitVec.getLsbD_extractLsb']
  interval_cases i <;> simp

/-! ## Masks of the opcode table -/

theorem opcode_bit (w : Word) {i : Nat} (h : i < 7) : (Inst.opcode w).getLsbD i = w.getLsbD i := by
  simp [Inst.opcode, h]

theorem funct3_bit (w : Word) {i : Nat} (h : i < 3) : (Inst.funct3 w).getLsbD i = w.getLsbD (12 + i) := by
  simp [Inst.funct3, h]

theorem funct7_bit (w : Word) {i : Nat} (h : i < 7) : (Inst.funct7 w).getLsbD i = w.getLsbD (25 + i) := by
  simp [Inst.funct7, h]

/-- A mask that covers the opcode field keeps it. -/
theorem opcode_and (w m : Word) (h : Inst.opcode m = BitVec.allOnes 7) : Inst.opcode (w &&& m) = Inst.opcode w := by
  unfold Inst.opcode at *
  rw [BitVec.extractLsb'_and, h, BitVec.and_allOnes]

/-- A mask that covers the funct3 field keeps it. -/
theorem funct3_and (w m : Word) (h : Inst.funct3 m = BitVec.allOnes 3) : Inst.funct3 (w &&& m) = Inst.funct3 w := by
  unfold Inst.funct3 at *
  rw [BitVec.extractLsb'_and, h, BitVec.and_allOnes]

/-- A mask that covers the funct7 field keeps it. -/
theorem funct7_and (w m : Word) (h : Inst.funct7 m = BitVec.allOnes 7) : Inst.funct7 (w &&& m) = Inst.funct7 w := by
  unfold Inst.funct7 at *
  rw [BitVec.extractLsb'_and, h, BitVec.and_allOnes]

/-- Two words that agree on every bit of a mask agree under it. -/
theorem and_eq_of_bits (w v m : Word) (h : ∀ i < 32, m.getLsbD i = true → w.getLsbD i = v.getLsbD i) :
    w &&& m = v &&& m := by
  apply BitVec.eq_of_getLsbD_eq
  intro i hi
  rw [BitVec.getLsbD_and, BitVec.getLsbD_and]
  by_cases hm : m.getLsbD i = true
  · rw [h i hi hm]
  · simp [hm]

/-- Mask 0x7F: the opcode alone (U and J rows, JALR, FENCE). -/
theorem and_opcode_iff (w v : Word) :
    w &&& 0x0000007F#32 = v &&& 0x0000007F#32 ↔ Inst.opcode w = Inst.opcode v := by
  constructor
  · intro h
    rw [← opcode_and w 0x0000007F#32 (by decide), h, opcode_and v _ (by decide)]
  · intro ho
    apply and_eq_of_bits
    intro i hi hm
    have hi7 : i < 7 := by
      by_contra hc
      interval_cases i <;> simp at hm hc
    rw [← opcode_bit w hi7, ho, opcode_bit v hi7]

/-- Mask 0x707F: opcode and funct3. -/
theorem and_funct3_iff (w v : Word) :
    w &&& 0x0000707F#32 = v &&& 0x0000707F#32 ↔
      Inst.opcode w = Inst.opcode v ∧ Inst.funct3 w = Inst.funct3 v := by
  constructor
  · intro h
    constructor
    · rw [← opcode_and w 0x0000707F#32 (by decide), h, opcode_and v _ (by decide)]
    · rw [← funct3_and w 0x0000707F#32 (by decide), h, funct3_and v _ (by decide)]
  · rintro ⟨ho, h3⟩
    apply and_eq_of_bits
    intro i hi hm
    have hcase : i < 7 ∨ (12 ≤ i ∧ i < 15) := by
      by_contra hc
      interval_cases i <;> simp at hm hc
    rcases hcase with h | ⟨h, h'⟩
    · rw [← opcode_bit w h, ho, opcode_bit v h]
    · obtain ⟨k, rfl⟩ := Nat.exists_eq_add_of_le h
      rw [← funct3_bit w (by omega), h3, funct3_bit v (by omega)]

/-- Mask 0xFE00707F: opcode, funct3 and funct7. -/
theorem and_funct7_iff (w v : Word) :
    w &&& 0xFE00707F#32 = v &&& 0xFE00707F#32 ↔
      Inst.opcode w = Inst.opcode v ∧ Inst.funct3 w = Inst.funct3 v ∧ Inst.funct7 w = Inst.funct7 v := by
  constructor
  · intro h
    refine ⟨?_, ?_, ?_⟩
    · rw [← opcode_and w 0xFE00707F#32 (by decide), h, opcode_and v _ (by decide)]
    · rw [← funct3_and w 0xFE00707F#32 (by decide), h, funct3_and v _ (by decide)]
    · rw [← funct7_and w 0xFE00707F#32 (by decide), h, funct7_and v _ (by decide)]
  · rintro ⟨ho, h3, h7⟩
    apply and_eq_of_bits
    intro i hi hm
    have hcase : i < 7 ∨ (12 ≤ i ∧ i < 15) ∨ 25 ≤ i := by
      by_contra hc
      interval_cases i <;> simp at hm hc
    rcases hcase with h | ⟨h, h'⟩ | h
    · rw [← opcode_bit w h, ho, opcode_bit v h]
    · obtain ⟨k, rfl⟩ := Nat.exists_eq_add_of_le h
      rw [← funct3_bit w (by omega), h3, funct3_bit v (by omega)]
    · obtain ⟨k, rfl⟩ := Nat.exists_eq_add_of_le h
      rw [← funct7_bit w (by omega), h7, funct7_bit v (by omega)]

/-- Mask 0x10707F: opcode, funct3 and bit 20 (ECALL and EBREAK). -/
theorem and_bit20_iff (w v : Word) :
    w &&& 0x0010707F#32 = v &&& 0x0010707F#32 ↔
      Inst.opcode w = Inst.opcode v ∧ Inst.funct3 w = Inst.funct3 v ∧ w.getLsbD 20 = v.getLsbD 20 := by
  constructor
  · intro h
    refine ⟨?_, ?_, ?_⟩
    · rw [← opcode_and w 0x0010707F#32 (by decide), h, opcode_and v _ (by decide)]
    · rw [← funct3_and w 0x0010707F#32 (by decide), h, funct3_and v _ (by decide)]
    · simpa using congrArg (fun x : Word => x.getLsbD 20) h
  · rintro ⟨ho, h3, hb⟩
    apply and_eq_of_bits
    intro i hi hm
    have hcase : i < 7 ∨ (12 ≤ i ∧ i < 15) ∨ i = 20 := by
      by_contra hc
      interval_cases i <;> simp at hm hc
    rcases hcase with h | ⟨h, h'⟩ | rfl
    · rw [← opcode_bit w h, ho, opcode_bit v h]
    · obtain ⟨k, rfl⟩ := Nat.exists_eq_add_of_le h
      rw [← funct3_bit w (by omega), h3, funct3_bit v (by omega)]
    · exact hb

/-! ## Bytes -/

/-- The word of the four bytes of a word is the word. -/
theorem wordOfBytes_bytes (w : Word) : wordOfBytes (w.byte 0) (w.byte 1) (w.byte 2) (w.byte 3) = w := by
  apply BitVec.eq_of_getLsbD_eq
  intro i hi
  simp only [wordOfBytes, Word.byte, BitVec.getLsbD_append, BitVec.getLsbD_extractLsb']
  interval_cases i <;> simp

end Sys2Proof
end

