-- ==== Sys2Proof/Laws/Dispatch.lean ====
section
/-! SUPPORT. What the dispatcher can answer, said once: one inversion lemma per function of rule R95's algorithm. A proof
about decoded instructions takes the case it needs from here and does not unfold the dispatcher. -/

namespace Sys2Proof

open Inst

/-- The eight values of a funct3 field. -/
theorem funct3_values (x : BitVec 3) :
    x = 0b000#3 ∨ x = 0b001#3 ∨ x = 0b010#3 ∨ x = 0b011#3 ∨ x = 0b100#3 ∨ x = 0b101#3 ∨ x = 0b110#3 ∨ x = 0b111#3 := by
  revert x; decide

theorem decodeBranch_ok {w : Word} {i : Instr} (h : decodeBranch w = .ok i) :
    (funct3 w = 0b000#3 ∧ i = .beq (rs1 w) (rs2 w) (off13B w)) ∨
    (funct3 w = 0b001#3 ∧ i = .bne (rs1 w) (rs2 w) (off13B w)) ∨
    (funct3 w = 0b100#3 ∧ i = .blt (rs1 w) (rs2 w) (off13B w)) ∨
    (funct3 w = 0b101#3 ∧ i = .bge (rs1 w) (rs2 w) (off13B w)) ∨
    (funct3 w = 0b110#3 ∧ i = .bltu (rs1 w) (rs2 w) (off13B w)) ∨
    (funct3 w = 0b111#3 ∧ i = .bgeu (rs1 w) (rs2 w) (off13B w)) := by
  rcases funct3_values (funct3 w) with e | e | e | e | e | e | e | e <;> simp [decodeBranch, e] at h
  all_goals simp_all

theorem decodeBranch_error {w : Word} {r : Reject} (h : decodeBranch w = .error r) :
    r = .branchFunct3 ∧ (funct3 w = 0b010#3 ∨ funct3 w = 0b011#3) := by
  rcases funct3_values (funct3 w) with e | e | e | e | e | e | e | e <;> simp [decodeBranch, e] at h
  all_goals simp_all

theorem decodeLoad_ok {w : Word} {i : Instr} (h : decodeLoad w = .ok i) :
    (funct3 w = 0b000#3 ∧ i = .lb (rd w) (rs1 w) (imm12I w)) ∨
    (funct3 w = 0b001#3 ∧ i = .lh (rd w) (rs1 w) (imm12I w)) ∨
    (funct3 w = 0b010#3 ∧ i = .lw (rd w) (rs1 w) (imm12I w)) ∨
    (funct3 w = 0b100#3 ∧ i = .lbu (rd w) (rs1 w) (imm12I w)) ∨
    (funct3 w = 0b101#3 ∧ i = .lhu (rd w) (rs1 w) (imm12I w)) ∨
    (funct3 w = 0b110#3 ∧ i = .lwu (rd w) (rs1 w) (imm12I w)) := by
  rcases funct3_values (funct3 w) with e | e | e | e | e | e | e | e <;> simp [decodeLoad, e] at h
  all_goals simp_all

theorem decodeLoad_error {w : Word} {r : Reject} (h : decodeLoad w = .error r) :
    r = .loadFunct3 ∧ (funct3 w = 0b011#3 ∨ funct3 w = 0b111#3) := by
  rcases funct3_values (funct3 w) with e | e | e | e | e | e | e | e <;> simp [decodeLoad, e] at h
  all_goals simp_all

theorem decodeStore_ok {w : Word} {i : Instr} (h : decodeStore w = .ok i) :
    (funct3 w = 0b000#3 ∧ i = .sb (rs2 w) (rs1 w) (imm12S w)) ∨
    (funct3 w = 0b001#3 ∧ i = .sh (rs2 w) (rs1 w) (imm12S w)) ∨
    (funct3 w = 0b010#3 ∧ i = .sw (rs2 w) (rs1 w) (imm12S w)) := by
  rcases funct3_values (funct3 w) with e | e | e | e | e | e | e | e <;> simp [decodeStore, e] at h
  all_goals simp_all

theorem decodeStore_error {w : Word} {r : Reject} (h : decodeStore w = .error r) :
    r = .storeFunct3 ∧ (3 ≤ (funct3 w).toNat) := by
  rcases funct3_values (funct3 w) with e | e | e | e | e | e | e | e <;> simp [decodeStore, e] at h
  all_goals simp_all

theorem decodeOpImm_ok {w : Word} {i : Instr} (h : decodeOpImm w = .ok i) :
    (funct3 w = 0b000#3 ∧ i = .addi (rd w) (rs1 w) (imm12I w)) ∨
    (funct3 w = 0b010#3 ∧ i = .slti (rd w) (rs1 w) (imm12I w)) ∨
    (funct3 w = 0b011#3 ∧ i = .sltiu (rd w) (rs1 w) (imm12I w)) ∨
    (funct3 w = 0b100#3 ∧ i = .xori (rd w) (rs1 w) (imm12I w)) ∨
    (funct3 w = 0b110#3 ∧ i = .ori (rd w) (rs1 w) (imm12I w)) ∨
    (funct3 w = 0b111#3 ∧ i = .andi (rd w) (rs1 w) (imm12I w)) ∨
    (funct3 w = 0b001#3 ∧ i = .slli (rd w) (rs1 w) (shamt w)) ∨
    (funct3 w = 0b101#3 ∧ funct7 w = 0b0000000#7 ∧ i = .srli (rd w) (rs1 w) (shamt w)) ∨
    (funct3 w = 0b101#3 ∧ funct7 w = 0b0100000#7 ∧ i = .srai (rd w) (rs1 w) (shamt w)) := by
  rcases funct3_values (funct3 w) with e | e | e | e | e | e | e | e <;> simp [decodeOpImm, e] at h
  all_goals try split at h
  all_goals simp_all

theorem decodeOpImm_error {w : Word} {r : Reject} (h : decodeOpImm w = .error r) :
    r = .opImmFunct7 ∧ (funct3 w = 0b101#3 ∧ funct7 w ≠ 0b0000000#7 ∧ funct7 w ≠ 0b0100000#7) := by
  rcases funct3_values (funct3 w) with e | e | e | e | e | e | e | e <;> simp [decodeOpImm, e] at h
  all_goals try split at h
  all_goals simp_all

theorem decodeOp_ok {w : Word} {i : Instr} (h : decodeOp w = .ok i) :
    (funct3 w = 0b000#3 ∧ funct7 w = 0b0000000#7 ∧ i = .add (rd w) (rs1 w) (rs2 w)) ∨
    (funct3 w = 0b000#3 ∧ funct7 w = 0b0100000#7 ∧ i = .sub (rd w) (rs1 w) (rs2 w)) ∨
    (funct3 w = 0b001#3 ∧ i = .sll (rd w) (rs1 w) (rs2 w)) ∨
    (funct3 w = 0b010#3 ∧ i = .slt (rd w) (rs1 w) (rs2 w)) ∨
    (funct3 w = 0b011#3 ∧ i = .sltu (rd w) (rs1 w) (rs2 w)) ∨
    (funct3 w = 0b100#3 ∧ i = .xor (rd w) (rs1 w) (rs2 w)) ∨
    (funct3 w = 0b101#3 ∧ funct7 w = 0b0000000#7 ∧ i = .srl (rd w) (rs1 w) (rs2 w)) ∨
    (funct3 w = 0b101#3 ∧ funct7 w = 0b0100000#7 ∧ i = .sra (rd w) (rs1 w) (rs2 w)) ∨
    (funct3 w = 0b110#3 ∧ i = .or (rd w) (rs1 w) (rs2 w)) ∨
    (funct3 w = 0b111#3 ∧ i = .and (rd w) (rs1 w) (rs2 w)) := by
  rcases funct3_values (funct3 w) with e | e | e | e | e | e | e | e <;> simp [decodeOp, e] at h
  all_goals try split at h
  all_goals simp_all

theorem decodeOp_error {w : Word} {r : Reject} (h : decodeOp w = .error r) :
    r = .opFunct7 ∧ ((funct3 w = 0b000#3 ∨ funct3 w = 0b101#3) ∧ funct7 w ≠ 0b0000000#7 ∧ funct7 w ≠ 0b0100000#7) := by
  rcases funct3_values (funct3 w) with e | e | e | e | e | e | e | e <;> simp [decodeOp, e] at h
  all_goals try split at h
  all_goals simp_all

theorem decodeSystem_ok {w : Word} {i : Instr} (h : decodeSystem w = .ok i) :
    (funct3 w = 0b000#3 ∧ w.getLsbD 20 = false ∧ i = .ecall) ∨
    (funct3 w = 0b000#3 ∧ w.getLsbD 20 = true ∧ i = .ebreak) ∨
    (funct3 w = 0b001#3 ∧ i = .csrrw (rd w) (csr w) (rs1 w)) ∨
    (funct3 w = 0b010#3 ∧ i = .csrrs (rd w) (csr w) (rs1 w)) ∨
    (funct3 w = 0b011#3 ∧ i = .csrrc (rd w) (csr w) (rs1 w)) ∨
    (funct3 w = 0b101#3 ∧ i = .csrrwi (rd w) (csr w) (uimm w)) ∨
    (funct3 w = 0b110#3 ∧ i = .csrrsi (rd w) (csr w) (uimm w)) ∨
    (funct3 w = 0b111#3 ∧ i = .csrrci (rd w) (csr w) (uimm w)) := by
  rcases funct3_values (funct3 w) with e | e | e | e | e | e | e | e <;> simp [decodeSystem, e] at h
  all_goals try split at h
  all_goals simp_all

theorem decodeSystem_error {w : Word} {r : Reject} (h : decodeSystem w = .error r) :
    r = .systemFunct3 ∧ (funct3 w = 0b100#3) := by
  rcases funct3_values (funct3 w) with e | e | e | e | e | e | e | e <;> simp [decodeSystem, e] at h
  all_goals try split at h
  all_goals simp_all

theorem decode_ok {w : Word} {i : Instr} (h : decode w = .ok i) :
    (opcode w = 0b0110111#7 ∧ i = .lui (rd w) (imm20U w)) ∨
    (opcode w = 0b0010111#7 ∧ i = .auipc (rd w) (imm20U w)) ∨
    (opcode w = 0b1101111#7 ∧ i = .jal (rd w) (off21J w)) ∨
    (opcode w = 0b1100111#7 ∧ i = .jalr (rd w) (rs1 w) (imm12I w)) ∨
    (opcode w = 0b0001111#7 ∧ i = .fence (fm w) (pred w) (succ w) (rs1 w) (rd w)) ∨
    (opcode w = 0b1100011#7 ∧ decodeBranch w = .ok i) ∨
    (opcode w = 0b0000011#7 ∧ decodeLoad w = .ok i) ∨
    (opcode w = 0b0100011#7 ∧ decodeStore w = .ok i) ∨
    (opcode w = 0b0010011#7 ∧ decodeOpImm w = .ok i) ∨
    (opcode w = 0b0110011#7 ∧ decodeOp w = .ok i) ∨
    (opcode w = 0b1110011#7 ∧ decodeSystem w = .ok i) := by
  unfold decode at h
  split at h
  all_goals simp_all

theorem decode_error {w : Word} {r : Reject} (h : decode w = .error r) :
    (r = .undefinedOpcode ∧ opcode w ∉ [0b0110111#7, 0b0010111#7, 0b1101111#7, 0b1100111#7, 0b1100011#7, 0b0000011#7,
      0b0100011#7, 0b0010011#7, 0b0110011#7, 0b0001111#7, 0b1110011#7]) ∨
    (opcode w = 0b1100011#7 ∧ decodeBranch w = .error r) ∨
    (opcode w = 0b0000011#7 ∧ decodeLoad w = .error r) ∨
    (opcode w = 0b0100011#7 ∧ decodeStore w = .error r) ∨
    (opcode w = 0b0010011#7 ∧ decodeOpImm w = .error r) ∨
    (opcode w = 0b0110011#7 ∧ decodeOp w = .error r) ∨
    (opcode w = 0b1110011#7 ∧ decodeSystem w = .error r) := by
  unfold decode at h
  split at h
  all_goals simp_all

end Sys2Proof
end

