-- ==== Sys2Proof/Laws/Exec.lean ====
section
/-! SUPPORT. What a completed instruction can have done, said once: it committed to its destination register, or moved
the PC alone, or stored and advanced. A proof about every instruction takes its three cases from `exec_next`. -/

namespace Sys2Proof.Machine

open Sys2Proof.Claims

/-- The PC a completed instruction leaves. -/
abbrev NextPc (i : Instr) (s : State) (n : Word) : Prop := n = s.pc + 4#32 ∨ jumpTarget s i = some n

/-- What a completed instruction can have done. -/
def Committed (i : Instr) (s t : State) : Prop :=
  (∃ rd v n, destination i = some rd ∧ (∀ a w, dataAccess s i ≠ some (.store, a, w)) ∧
    NextPc i s n ∧ t = (s.writeReg rd v).setPc n) ∨
  (∃ n, destination i = none ∧ dataAccess s i = none ∧ NextPc i s n ∧ t = s.setPc n) ∨
  (∃ a w v, destination i = none ∧ dataAccess s i = some (.store, a, w) ∧ admitted s.cfg a w.bytes = true ∧
    t = ({ s with mem := s.mem.writeLE a.toNat v w } : State).setPc (s.pc + 4#32))

theorem committed_reg {i : Instr} {s t : State} {rd : Reg} {wb : WbSelect} {n : PcSelect}
    (h : commitReg s rd wb n = .next t) (hd : destination i = some rd)
    (ha : ∀ a w, dataAccess s i ≠ some (.store, a, w)) (hn : NextPc i s (pcMux s.pc n)) : Committed i s t := by
  cases h
  exact .inl ⟨rd, _, _, hd, ha, hn, rfl⟩

theorem committed_branch {i : Instr} {s t : State} {c : BranchCond} {rs1 rs2 : Reg} {off : BitVec 13}
    (h : branchIf c rs1 rs2 off s = .next t) (hd : destination i = none) (ha : dataAccess s i = none)
    (hj : jumpTarget s i = some (s.pc + off.signExtend 32)) : Committed i s t := by
  unfold branchIf at h
  cases h
  refine .inr (.inl ⟨_, hd, ha, ?_, rfl⟩)
  split
  · exact .inr hj
  · exact .inl rfl

theorem committed_load {i : Instr} {s t : State} {w : Width} {e : LoadExt} {rd rs1 : Reg} {imm : BitVec 12}
    (h : loadWith w e rd rs1 imm s = .next t) (hd : destination i = some rd)
    (ha : ∀ a w, dataAccess s i ≠ some (.store, a, w)) : Committed i s t := by
  rw [loadWith_eq] at h
  split at h
  · exact committed_reg h hd ha (.inl rfl)
  · cases h

theorem committed_store {i : Instr} {s t : State} {w : Width} {rs2 rs1 : Reg} {imm : BitVec 12}
    (h : storeWith w rs2 rs1 imm s = .next t) (hd : destination i = none)
    (ha : dataAccess s i = some (.store, address rs1 imm s, w)) : Committed i s t := by
  rw [storeWith_eq] at h
  split at h
  · next hb =>
    cases h
    exact .inr (.inr ⟨_, w, _, hd, ha, hb, rfl⟩)
  · cases h

/-- Every completed instruction did one of the three. -/
theorem exec_next {i : Instr} {s t : State} (h : exec i s = .next t) : Committed i s t := by
  cases i
  case jal => exact committed_reg h rfl (by simp [dataAccess]) (.inr rfl)
  case jalr => exact committed_reg h rfl (by simp [dataAccess]) (.inr rfl)
  case beq | bne | blt | bge | bltu | bgeu => exact committed_branch h rfl rfl rfl
  case lb | lbu | lh | lhu | lw | lwu => exact committed_load h rfl (by simp [dataAccess])
  case sb | sh | sw => exact committed_store h rfl rfl
  case fence | csrrw | csrrs | csrrc | csrrwi | csrrsi | csrrci | ecall | ebreak =>
    cases h; exact .inr (.inl ⟨_, rfl, rfl, .inl rfl, rfl⟩)
  all_goals exact committed_reg h rfl (by simp [dataAccess]) (.inl rfl)

end Sys2Proof.Machine
end

