-- ==== Sys2Proof/Laws/Observation.lean ====
section
/-! SUPPORT. What a call returns, and what an event can do to the observation. -/

namespace Sys2Proof.Machine

/-! ## `settled` -/

@[simp] theorem settled_next (s t : State) : settled s (.next t) = some (t, .ok) := rfl
@[simp] theorem settled_fault (s : State) (f : Fault) : settled s (.fault f) = some (s, .fault f) := rfl
@[simp] theorem settled_refused (s : State) (r : Refusal) : settled s (.refused r) = none := rfl

/-- A call returns Ok with a state exactly when its result is that next state. -/
theorem settled_ok_iff (s t : State) (r : Result) : settled s r = some (t, .ok) ↔ r = .next t := by
  cases r <;> simp

/-- A call returns a fault exactly when its result is that fault, and then with the state it had. -/
theorem settled_fault_iff (s t : State) (f : Fault) (r : Result) :
    settled s r = some (t, .fault f) ↔ t = s ∧ r = .fault f := by
  cases r <;> simp [eq_comm]

/-! ## Reports -/

@[simp] theorem reports_ok : Status.ok.reports = [] := rfl
@[simp] theorem reports_fault (f : Fault) : (Status.fault f).reports = [f] := rfl

@[simp] theorem afterCall_state (o : Observed) (t : State) (c : Status) : (o.afterCall (t, c)).state = t := rfl
@[simp] theorem afterCall_reports (o : Observed) (t : State) (c : Status) :
    (o.afterCall (t, c)).reports = o.reports ++ c.reports := rfl

/-- The host's own access leaves the record as it is. -/
@[simp] theorem afterAct_reports (o : Observed) (h : HostAction) : (o.afterAct h).reports = o.reports := by
  unfold Observed.afterAct; split <;> rfl

/-- The state after the host's own access is the one `hostAct` gives, or as it was where the bus refuses. -/
theorem afterAct_state (o : Observed) (h : HostAction) :
    (o.afterAct h).state = match hostAct o.state h with | .ok t => t | .error _ => o.state := by
  cases e : hostAct o.state h <;> simp [Observed.afterAct, e]

/-- What one event can do to the record: add at its end the report of the call it makes, and nothing else. -/
theorem event_reports {o p : Observed} {e : HostEvent} (h : o.event e = some p) :
    ∃ new, p.reports = o.reports ++ new := by
  cases e with
  | step =>
    obtain ⟨c, -, rfl⟩ := Option.map_eq_some_iff.1 h
    exact ⟨_, rfl⟩
  | execute w =>
    obtain ⟨c, -, rfl⟩ := Option.map_eq_some_iff.1 h
    exact ⟨_, rfl⟩
  | act a =>
    cases h
    exact ⟨[], by simp⟩
  | restart =>
    cases h
    exact ⟨[], by simp⟩

@[simp] theorem run_nil (o : Observed) : o.run [] = some o := rfl

theorem run_cons (o : Observed) (e : HostEvent) (es : List HostEvent) :
    o.run (e :: es) = (o.event e).bind fun next => next.run es := rfl

end Sys2Proof.Machine
end

