-- ==== Sys2Proof/Laws/PerInstr.lean ====
section
/-! SUPPORT. The family TableRow: the word of every instruction matches the instruction's own row of the opcode table
(spec/opcode_table.json), with every operand at every value. One lemma per constructor. -/

/-- The encoded word matches the instruction's row. -/
def Sys2Proof.Laws.TableRow.Statement (i : Sys2Proof.Instr) : Prop :=
  Sys2Proof.encode i &&& i.row.mask = i.row.pattern

namespace Sys2Proof.Laws.TableRow

theorem lui (rd : Reg) (imm : BitVec 20) : Statement (.lui rd imm) := by
  refine (and_opcode_iff _ 0x00000037#32).2 ?_
  simp only [encode, opcode_encU]
  decide

theorem auipc (rd : Reg) (imm : BitVec 20) : Statement (.auipc rd imm) := by
  refine (and_opcode_iff _ 0x00000017#32).2 ?_
  simp only [encode, opcode_encU]
  decide

theorem jal (rd : Reg) (off : BitVec 21) : Statement (.jal rd off) := by
  refine (and_opcode_iff _ 0x0000006F#32).2 ?_
  simp only [encode, opcode_encJ]
  decide

theorem jalr (rd : Reg) (rs1 : Reg) (imm : BitVec 12) : Statement (.jalr rd rs1 imm) := by
  refine (and_opcode_iff _ 0x00000067#32).2 ?_
  simp only [encode, opcode_encI]
  decide

theorem beq (rs1 : Reg) (rs2 : Reg) (off : BitVec 13) : Statement (.beq rs1 rs2 off) := by
  refine (and_funct3_iff _ 0x00000063#32).2 ?_
  simp only [encode, opcode_encB, funct3_encB]
  decide

theorem bne (rs1 : Reg) (rs2 : Reg) (off : BitVec 13) : Statement (.bne rs1 rs2 off) := by
  refine (and_funct3_iff _ 0x00001063#32).2 ?_
  simp only [encode, opcode_encB, funct3_encB]
  decide

theorem blt (rs1 : Reg) (rs2 : Reg) (off : BitVec 13) : Statement (.blt rs1 rs2 off) := by
  refine (and_funct3_iff _ 0x00004063#32).2 ?_
  simp only [encode, opcode_encB, funct3_encB]
  decide

theorem bge (rs1 : Reg) (rs2 : Reg) (off : BitVec 13) : Statement (.bge rs1 rs2 off) := by
  refine (and_funct3_iff _ 0x00005063#32).2 ?_
  simp only [encode, opcode_encB, funct3_encB]
  decide

theorem bltu (rs1 : Reg) (rs2 : Reg) (off : BitVec 13) : Statement (.bltu rs1 rs2 off) := by
  refine (and_funct3_iff _ 0x00006063#32).2 ?_
  simp only [encode, opcode_encB, funct3_encB]
  decide

theorem bgeu (rs1 : Reg) (rs2 : Reg) (off : BitVec 13) : Statement (.bgeu rs1 rs2 off) := by
  refine (and_funct3_iff _ 0x00007063#32).2 ?_
  simp only [encode, opcode_encB, funct3_encB]
  decide

theorem lb (rd : Reg) (rs1 : Reg) (imm : BitVec 12) : Statement (.lb rd rs1 imm) := by
  refine (and_funct3_iff _ 0x00000003#32).2 ?_
  simp only [encode, opcode_encI, funct3_encI]
  decide

theorem lh (rd : Reg) (rs1 : Reg) (imm : BitVec 12) : Statement (.lh rd rs1 imm) := by
  refine (and_funct3_iff _ 0x00001003#32).2 ?_
  simp only [encode, opcode_encI, funct3_encI]
  decide

theorem lw (rd : Reg) (rs1 : Reg) (imm : BitVec 12) : Statement (.lw rd rs1 imm) := by
  refine (and_funct3_iff _ 0x00002003#32).2 ?_
  simp only [encode, opcode_encI, funct3_encI]
  decide

theorem lbu (rd : Reg) (rs1 : Reg) (imm : BitVec 12) : Statement (.lbu rd rs1 imm) := by
  refine (and_funct3_iff _ 0x00004003#32).2 ?_
  simp only [encode, opcode_encI, funct3_encI]
  decide

theorem lhu (rd : Reg) (rs1 : Reg) (imm : BitVec 12) : Statement (.lhu rd rs1 imm) := by
  refine (and_funct3_iff _ 0x00005003#32).2 ?_
  simp only [encode, opcode_encI, funct3_encI]
  decide

theorem lwu (rd : Reg) (rs1 : Reg) (imm : BitVec 12) : Statement (.lwu rd rs1 imm) := by
  refine (and_funct3_iff _ 0x00006003#32).2 ?_
  simp only [encode, opcode_encI, funct3_encI]
  decide

theorem sb (rs2 : Reg) (rs1 : Reg) (imm : BitVec 12) : Statement (.sb rs2 rs1 imm) := by
  refine (and_funct3_iff _ 0x00000023#32).2 ?_
  simp only [encode, opcode_encS, funct3_encS]
  decide

theorem sh (rs2 : Reg) (rs1 : Reg) (imm : BitVec 12) : Statement (.sh rs2 rs1 imm) := by
  refine (and_funct3_iff _ 0x00001023#32).2 ?_
  simp only [encode, opcode_encS, funct3_encS]
  decide

theorem sw (rs2 : Reg) (rs1 : Reg) (imm : BitVec 12) : Statement (.sw rs2 rs1 imm) := by
  refine (and_funct3_iff _ 0x00002023#32).2 ?_
  simp only [encode, opcode_encS, funct3_encS]
  decide

theorem addi (rd : Reg) (rs1 : Reg) (imm : BitVec 12) : Statement (.addi rd rs1 imm) := by
  refine (and_funct3_iff _ 0x00000013#32).2 ?_
  simp only [encode, opcode_encI, funct3_encI]
  decide

theorem slti (rd : Reg) (rs1 : Reg) (imm : BitVec 12) : Statement (.slti rd rs1 imm) := by
  refine (and_funct3_iff _ 0x00002013#32).2 ?_
  simp only [encode, opcode_encI, funct3_encI]
  decide

theorem sltiu (rd : Reg) (rs1 : Reg) (imm : BitVec 12) : Statement (.sltiu rd rs1 imm) := by
  refine (and_funct3_iff _ 0x00003013#32).2 ?_
  simp only [encode, opcode_encI, funct3_encI]
  decide

theorem xori (rd : Reg) (rs1 : Reg) (imm : BitVec 12) : Statement (.xori rd rs1 imm) := by
  refine (and_funct3_iff _ 0x00004013#32).2 ?_
  simp only [encode, opcode_encI, funct3_encI]
  decide

theorem ori (rd : Reg) (rs1 : Reg) (imm : BitVec 12) : Statement (.ori rd rs1 imm) := by
  refine (and_funct3_iff _ 0x00006013#32).2 ?_
  simp only [encode, opcode_encI, funct3_encI]
  decide

theorem andi (rd : Reg) (rs1 : Reg) (imm : BitVec 12) : Statement (.andi rd rs1 imm) := by
  refine (and_funct3_iff _ 0x00007013#32).2 ?_
  simp only [encode, opcode_encI, funct3_encI]
  decide

theorem slli (rd : Reg) (rs1 : Reg) (shamt : BitVec 5) : Statement (.slli rd rs1 shamt) := by
  refine (and_funct3_iff _ 0x00001013#32).2 ?_
  simp only [encode, opcode_encR, funct3_encR]
  decide

theorem srli (rd : Reg) (rs1 : Reg) (shamt : BitVec 5) : Statement (.srli rd rs1 shamt) := by
  refine (and_funct7_iff _ 0x00005013#32).2 ?_
  simp only [encode, opcode_encR, funct3_encR, funct7_encR]
  decide

theorem srai (rd : Reg) (rs1 : Reg) (shamt : BitVec 5) : Statement (.srai rd rs1 shamt) := by
  refine (and_funct7_iff _ 0x40005013#32).2 ?_
  simp only [encode, opcode_encR, funct3_encR, funct7_encR]
  decide

theorem add (rd : Reg) (rs1 : Reg) (rs2 : Reg) : Statement (.add rd rs1 rs2) := by
  refine (and_funct7_iff _ 0x00000033#32).2 ?_
  simp only [encode, opcode_encR, funct3_encR, funct7_encR]
  decide

theorem sub (rd : Reg) (rs1 : Reg) (rs2 : Reg) : Statement (.sub rd rs1 rs2) := by
  refine (and_funct7_iff _ 0x40000033#32).2 ?_
  simp only [encode, opcode_encR, funct3_encR, funct7_encR]
  decide

theorem sll (rd : Reg) (rs1 : Reg) (rs2 : Reg) : Statement (.sll rd rs1 rs2) := by
  refine (and_funct3_iff _ 0x00001033#32).2 ?_
  simp only [encode, opcode_encR, funct3_encR]
  decide

theorem slt (rd : Reg) (rs1 : Reg) (rs2 : Reg) : Statement (.slt rd rs1 rs2) := by
  refine (and_funct3_iff _ 0x00002033#32).2 ?_
  simp only [encode, opcode_encR, funct3_encR]
  decide

theorem sltu (rd : Reg) (rs1 : Reg) (rs2 : Reg) : Statement (.sltu rd rs1 rs2) := by
  refine (and_funct3_iff _ 0x00003033#32).2 ?_
  simp only [encode, opcode_encR, funct3_encR]
  decide

theorem xor (rd : Reg) (rs1 : Reg) (rs2 : Reg) : Statement (.xor rd rs1 rs2) := by
  refine (and_funct3_iff _ 0x00004033#32).2 ?_
  simp only [encode, opcode_encR, funct3_encR]
  decide

theorem srl (rd : Reg) (rs1 : Reg) (rs2 : Reg) : Statement (.srl rd rs1 rs2) := by
  refine (and_funct7_iff _ 0x00005033#32).2 ?_
  simp only [encode, opcode_encR, funct3_encR, funct7_encR]
  decide

theorem sra (rd : Reg) (rs1 : Reg) (rs2 : Reg) : Statement (.sra rd rs1 rs2) := by
  refine (and_funct7_iff _ 0x40005033#32).2 ?_
  simp only [encode, opcode_encR, funct3_encR, funct7_encR]
  decide

theorem or (rd : Reg) (rs1 : Reg) (rs2 : Reg) : Statement (.or rd rs1 rs2) := by
  refine (and_funct3_iff _ 0x00006033#32).2 ?_
  simp only [encode, opcode_encR, funct3_encR]
  decide

theorem and (rd : Reg) (rs1 : Reg) (rs2 : Reg) : Statement (.and rd rs1 rs2) := by
  refine (and_funct3_iff _ 0x00007033#32).2 ?_
  simp only [encode, opcode_encR, funct3_encR]
  decide

theorem fence (fm : BitVec 4) (pred : BitVec 4) (succ : BitVec 4) (rs1 : Reg) (rd : Reg) : Statement (.fence fm pred succ rs1 rd) := by
  refine (and_opcode_iff _ 0x0000000F#32).2 ?_
  simp only [encode, opcode_encI]
  decide

theorem csrrw (rd : Reg) (csr : BitVec 12) (rs1 : Reg) : Statement (.csrrw rd csr rs1) := by
  refine (and_funct3_iff _ 0x00001073#32).2 ?_
  simp only [encode, opcode_encI, funct3_encI]
  decide

theorem csrrs (rd : Reg) (csr : BitVec 12) (rs1 : Reg) : Statement (.csrrs rd csr rs1) := by
  refine (and_funct3_iff _ 0x00002073#32).2 ?_
  simp only [encode, opcode_encI, funct3_encI]
  decide

theorem csrrc (rd : Reg) (csr : BitVec 12) (rs1 : Reg) : Statement (.csrrc rd csr rs1) := by
  refine (and_funct3_iff _ 0x00003073#32).2 ?_
  simp only [encode, opcode_encI, funct3_encI]
  decide

theorem csrrwi (rd : Reg) (csr : BitVec 12) (uimm : BitVec 5) : Statement (.csrrwi rd csr uimm) := by
  refine (and_funct3_iff _ 0x00005073#32).2 ?_
  simp only [encode, opcode_encI, funct3_encI]
  decide

theorem csrrsi (rd : Reg) (csr : BitVec 12) (uimm : BitVec 5) : Statement (.csrrsi rd csr uimm) := by
  refine (and_funct3_iff _ 0x00006073#32).2 ?_
  simp only [encode, opcode_encI, funct3_encI]
  decide

theorem csrrci (rd : Reg) (csr : BitVec 12) (uimm : BitVec 5) : Statement (.csrrci rd csr uimm) := by
  refine (and_funct3_iff _ 0x00007073#32).2 ?_
  simp only [encode, opcode_encI, funct3_encI]
  decide

theorem ecall : Statement (.ecall) := by
  unfold Statement; decide

theorem ebreak : Statement (.ebreak) := by
  unfold Statement; decide

end Sys2Proof.Laws.TableRow
end

