-- ==== Sys2Proof/Tests/Slice0.lean ====
section
/-! SUPPORT. The model's own tests. Every expected value is the spec's: an encoding is written out field by field from
the formats and numbers of spec/30_encoding.md rules R82, R91 and R92, and a step's result is that of the vector
V<n> of spec/95_test_vectors.md named in the theorem. The last part shows, for each statement with hypotheses, a state
and operands that meet them. -/

namespace Sys2Proof.Tests

open Sys2Proof.Machine Sys2Proof.Claims

/-! ## Ill-formed instructions are refused (WellFormed.lean) -/

theorem test_wf_jal_refuses_odd : (Instr.jal 1#5 9#21).wf = false := by decide
theorem test_wf_beq_refuses_odd : (Instr.beq 1#5 2#5 0x1FFF#13).wf = false := by decide
theorem test_wf_bne_refuses_odd : (Instr.bne 1#5 2#5 1#13).wf = false := by decide
theorem test_wf_blt_refuses_odd : (Instr.blt 1#5 2#5 1#13).wf = false := by decide
theorem test_wf_bge_refuses_odd : (Instr.bge 1#5 2#5 1#13).wf = false := by decide
theorem test_wf_bltu_refuses_odd : (Instr.bltu 1#5 2#5 1#13).wf = false := by decide
theorem test_wf_bgeu_refuses_odd : (Instr.bgeu 1#5 2#5 1#13).wf = false := by decide

/-! ## Decoding, each word written field by field -/

/-- U: imm[31:12] rd opcode. J: imm[20] imm[10:1] imm[11] imm[19:12] rd opcode; the offset has one bit of each piece
set: bits 20, 19, 11 and 1. -/
theorem test_decode_upper_and_jal :
    decode 0b00010010001101000101_00001_0110111#32 = .ok (.lui 1#5 0x12345#20) ∧
    decode 0b10000000000000000001_00011_0010111#32 = .ok (.auipc 3#5 0x80001#20) ∧
    decode 0b1_0000000001_1_10000000_00101_1101111#32 = .ok (.jal 5#5 0x180802#21) := by decide

/-- I: imm[11:0] rs1 funct3 rd opcode. -/
theorem test_decode_jalr : decode 0b100000000101_00110_000_00001_1100111#32 = .ok (.jalr 1#5 6#5 0x805#12) := by decide

/-- B: imm[12] imm[10:5] rs2 rs1 funct3 imm[4:1] imm[11] opcode; bits 12, 10, 4 of the offset in the first, bit 11 and
bit 1 in the second. -/
theorem test_decode_branches :
    decode 0b1_100000_00010_00001_000_1000_0_1100011#32 = .ok (.beq 1#5 2#5 0x1410#13) ∧
    decode 0b0_000000_00010_00001_001_0001_1_1100011#32 = .ok (.bne 1#5 2#5 0x802#13) ∧
    decode 0b0_000000_00010_00001_100_1000_0_1100011#32 = .ok (.blt 1#5 2#5 16#13) ∧
    decode 0b0_000000_00010_00001_101_1000_0_1100011#32 = .ok (.bge 1#5 2#5 16#13) ∧
    decode 0b0_000000_00010_00001_110_1000_0_1100011#32 = .ok (.bltu 1#5 2#5 16#13) ∧
    decode 0b0_000001_00010_00001_111_0000_0_1100011#32 = .ok (.bgeu 1#5 2#5 32#13) := by decide

/-- I: imm[11:0] rs1 funct3 rd opcode. -/
theorem test_decode_loads :
    decode 0b111111111111_00101_000_00110_0000011#32 = .ok (.lb 6#5 5#5 0xFFF#12) ∧
    decode 0b000000000010_00101_001_00110_0000011#32 = .ok (.lh 6#5 5#5 2#12) ∧
    decode 0b111111111100_00010_010_00110_0000011#32 = .ok (.lw 6#5 2#5 0xFFC#12) ∧
    decode 0b000000000011_00101_100_00110_0000011#32 = .ok (.lbu 6#5 5#5 3#12) ∧
    decode 0b000000000010_00101_101_00110_0000011#32 = .ok (.lhu 6#5 5#5 2#12) ∧
    decode 0b000000000000_00101_110_00110_0000011#32 = .ok (.lwu 6#5 5#5 0#12) := by decide

/-- S: imm[11:5] rs2 rs1 funct3 imm[4:0] opcode. -/
theorem test_decode_stores :
    decode 0b0000000_00111_00101_000_00001_0100011#32 = .ok (.sb 7#5 5#5 1#12) ∧
    decode 0b0000001_00111_00101_001_00010_0100011#32 = .ok (.sh 7#5 5#5 0x22#12) ∧
    decode 0b1111111_00111_00010_010_11100_0100011#32 = .ok (.sw 7#5 2#5 0xFFC#12) := by decide

/-- I: imm[11:0] rs1 funct3 rd opcode; the shifts hold funct7 and shamt there. -/
theorem test_decode_alu_immediate :
    decode 0b100000000000_00110_000_00101_0010011#32 = .ok (.addi 5#5 6#5 0x800#12) ∧
    decode 0b111111111111_00110_010_00101_0010011#32 = .ok (.slti 5#5 6#5 0xFFF#12) ∧
    decode 0b000000000001_00110_011_00101_0010011#32 = .ok (.sltiu 5#5 6#5 1#12) ∧
    decode 0b111111111111_00110_100_00101_0010011#32 = .ok (.xori 5#5 6#5 0xFFF#12) ∧
    decode 0b100000000000_00110_110_00101_0010011#32 = .ok (.ori 5#5 6#5 0x800#12) ∧
    decode 0b111111110000_00110_111_00101_0010011#32 = .ok (.andi 5#5 6#5 0xFF0#12) ∧
    decode 0b0000000_11111_00110_001_00101_0010011#32 = .ok (.slli 5#5 6#5 31#5) ∧
    decode 0b0000000_11111_00110_101_00101_0010011#32 = .ok (.srli 5#5 6#5 31#5) ∧
    decode 0b0100000_11111_00110_101_00101_0010011#32 = .ok (.srai 5#5 6#5 31#5) := by decide

/-- R: funct7 rs2 rs1 funct3 rd opcode. -/
theorem test_decode_alu_register :
    decode 0b0000000_00111_00110_000_00101_0110011#32 = .ok (.add 5#5 6#5 7#5) ∧
    decode 0b0100000_00111_00110_000_00101_0110011#32 = .ok (.sub 5#5 6#5 7#5) ∧
    decode 0b0000000_00111_00110_001_00101_0110011#32 = .ok (.sll 5#5 6#5 7#5) ∧
    decode 0b0000000_00111_00110_010_00101_0110011#32 = .ok (.slt 5#5 6#5 7#5) ∧
    decode 0b0000000_00111_00110_011_00101_0110011#32 = .ok (.sltu 5#5 6#5 7#5) ∧
    decode 0b0000000_00111_00110_100_00101_0110011#32 = .ok (.xor 5#5 6#5 7#5) ∧
    decode 0b0000000_00111_00110_101_00101_0110011#32 = .ok (.srl 5#5 6#5 7#5) ∧
    decode 0b0100000_00111_00110_101_00101_0110011#32 = .ok (.sra 5#5 6#5 7#5) ∧
    decode 0b0000000_00111_00110_110_00101_0110011#32 = .ok (.or 5#5 6#5 7#5) ∧
    decode 0b0000000_00111_00110_111_00101_0110011#32 = .ok (.and 5#5 6#5 7#5) := by decide

/-- FENCE: fm pred succ rs1 funct3 rd opcode (R230); CSR: csr rs1 or uimm funct3 rd opcode (R231, R234). -/
theorem test_decode_stubs :
    decode 0b1000_1111_0011_00000_000_00000_0001111#32 = .ok (.fence 8#4 15#4 3#4 0#5 0#5) ∧
    decode 0b011111111111_00110_001_00000_1110011#32 = .ok (.csrrw 0#5 0x7FF#12 6#5) ∧
    decode 0b110000000000_00000_010_00101_1110011#32 = .ok (.csrrs 5#5 0xC00#12 0#5) ∧
    decode 0b000000000001_00110_011_00101_1110011#32 = .ok (.csrrc 5#5 0x001#12 6#5) ∧
    decode 0b001101000000_11111_101_00101_1110011#32 = .ok (.csrrwi 5#5 0x340#12 31#5) ∧
    decode 0b111100010100_00001_110_00000_1110011#32 = .ok (.csrrsi 0#5 0xF14#12 1#5) ∧
    decode 0b001100000000_00111_111_00101_1110011#32 = .ok (.csrrci 5#5 0x300#12 7#5) ∧
    decode 0b000000000000_00000_000_00000_1110011#32 = .ok .ecall ∧
    decode 0b000000000001_00000_000_00000_1110011#32 = .ok .ebreak := by decide

/-- One illegal word of each class (a) to (g) of R97: V146, V53, V75, V86, V111, V130, V143. -/
theorem test_decode_illegal_classes :
    decode 0x0000000B#32 = .error .undefinedOpcode ∧ decode 0x0020A463#32 = .error .branchFunct3 ∧
    decode 0x0002F303#32 = .error .loadFunct3 ∧ decode 0x0072B023#32 = .error .storeFunct3 ∧
    decode 0x42435293#32 = .error .opImmFunct7 ∧ decode 0x027352B3#32 = .error .opFunct7 ∧
    decode 0x00004073#32 = .error .systemFunct3 := by decide

/-- The bytes of a word, lowest address first (R54, R80). -/
theorem test_decode_bytes :
    decodeBytes [0x93#8, 0x02#8, 0xA0#8, 0x00#8, 0x13#8] = .ok (.addi 5#5 0#5 10#12, [0x13#8]) := by decide

/-! ## One step -/

/-- The common setting of 95_test_vectors.md. -/
def region : Config := ⟨0x80000000#32, 0x10000, false⟩
/-- The same with ALIGN_CHECK = true. -/
def aligned : Config := ⟨0x80000000#32, 0x10000, true⟩

/-- The listed registers over zeros. -/
def regsOf (l : List (Nat × Word)) : Vector Word 32 :=
  l.foldl (fun v p => v.setIfInBounds p.1 p.2) (Vector.replicate 32 0#32)

/-- The listed bytes. -/
def memOf (l : List Host.Cell) : Memory := l.foldl (fun m c => m.write c.1 c.2) []

/-- The four bytes of a word at an address, lowest first. -/
def cells (a : Nat) (b0 b1 b2 b3 : Byte) : List Host.Cell := [(a, b0), (a + 1, b1), (a + 2, b2), (a + 3, b3)]

/-- A vector's state: the instruction word at `at_`, the PC, the listed registers and bytes. -/
def st (c : Config) (at_ : Nat) (w pc : Word) (regs : List (Nat × Word)) (bytes : List Host.Cell) : State :=
  ⟨regsOf regs, pc, memOf (cells at_ (w.byte 0) (w.byte 1) (w.byte 2) (w.byte 3) ++ bytes), c⟩

/-- Whether the step gives exactly this state. -/
def steps (s t : State) : Bool :=
  match step s with
  | .next u => decide (u = t)
  | .fault _ => false
  | .refused _ => false

/-- Whether the step reports exactly this fault. -/
def faults (s : State) (f : Fault) : Bool :=
  match step s with
  | .next _ => false
  | .fault g => decide (g = f)
  | .refused _ => false

/-- A vector at 0x80000000 that ends Ok: registers and bytes before and all of them after. -/
def ok (w : Word) (r : List (Nat × Word)) (b : List Host.Cell) (pc : Word) (r' : List (Nat × Word))
    (b' : List Host.Cell) : Bool :=
  steps (st region 0x80000000 w 0x80000000#32 r b) (st region 0x80000000 w pc r' b')

/-- The same for one that changes the PC alone. -/
def moves (w : Word) (r : List (Nat × Word)) (pc : Word) : Bool := ok w r [] pc r []

theorem test_V5_lui : ok 0x123450B7#32 [] [] 0x80000004#32 [(1, 0x12345000#32)] [] := by decide
theorem test_V2_lui_x0 : moves 0x12345037#32 [] 0x80000004#32 := by decide
theorem test_V22_auipc_wraps :
    ok 0x80000197#32 [(3, 0xFFFFFFFF#32)] [] 0x80000004#32 [(3, 0#32)] [] := by decide
theorem test_V23_auipc_negative :
    steps (st region 0x80000004 0xFFFFF197#32 0x80000004#32 [] [])
      (st region 0x80000004 0xFFFFF197#32 0x80000008#32 [(3, 0x7FFFF004#32)] []) := by decide
theorem test_V28_jal_back : ok 0x800000EF#32 [] [] 0x7FF00000#32 [(1, 0x80000004#32)] [] := by decide
theorem test_V29_jal_forward : ok 0x7FFFF0EF#32 [] [] 0x800FFFFE#32 [(1, 0x80000004#32)] [] := by decide
theorem test_V31_jalr_same_register :
    ok 0x000080E7#32 [(1, 0x80000100#32)] [] 0x80000100#32 [(1, 0x80000004#32)] [] := by decide
theorem test_V30_jalr_clears_bit0 :
    ok 0x005300E7#32 [(6, 0x80000100#32)] [] 0x80000104#32 [(6, 0x80000100#32), (1, 0x80000004#32)] [] := by decide

theorem test_V11_beq_taken : moves 0x00108463#32 [(1, 5#32)] 0x80000008#32 := by decide
theorem test_V10_beq_not_taken : moves 0x00208463#32 [(1, 1#32), (2, 2#32)] 0x80000004#32 := by decide
theorem test_V36_bne_taken :
    steps (st region 0x80000010 0xFE209EE3#32 0x80000010#32 [(1, 1#32), (2, 2#32)] [])
      (st region 0x80000010 0xFE209EE3#32 0x8000000C#32 [(1, 1#32), (2, 2#32)] []) := by decide
theorem test_V40_blt_signed : moves 0x0020C863#32 [(1, 0x80000000#32), (2, 0x7FFFFFFF#32)] 0x80000010#32 := by decide
theorem test_V41_blt_equal : moves 0x0010C863#32 [(1, 5#32)] 0x80000004#32 := by decide
theorem test_V43_bge_equal : moves 0x0020D863#32 [(1, 3#32), (2, 3#32)] 0x80000010#32 := by decide
theorem test_V44_bge_signed : moves 0x0020D863#32 [(1, 0x80000000#32), (2, 0x7FFFFFFF#32)] 0x80000004#32 := by decide
theorem test_V45_bltu : moves 0x0020E863#32 [(1, 1#32), (2, 0xFFFFFFFF#32)] 0x80000010#32 := by decide
theorem test_V46_bltu_unsigned : moves 0x0020E863#32 [(1, 0xFFFFFFFF#32), (2, 1#32)] 0x80000004#32 := by decide
theorem test_V48_bgeu_unsigned : moves 0x0020F863#32 [(1, 0xFFFFFFFF#32), (2, 1#32)] 0x80000010#32 := by decide
theorem test_V49_bgeu_below : moves 0x0020F863#32 [(1, 0#32), (2, 1#32)] 0x80000004#32 := by decide

theorem test_V8_lb_sign : ok 0x00028303#32 [(5, 0x80000100#32)] [(0x80000100, 0xFF#8)] 0x80000004#32
    [(5, 0x80000100#32), (6, 0xFFFFFFFF#32)] [(0x80000100, 0xFF#8)] := by decide
theorem test_V67_lb_below_base :
    faults (st region 0x80000000 0x00028303#32 0x80000000#32 [(5, 0x7FFFFFFF#32)] [])
      (.memoryFault .load 0x7FFFFFFF#32 .w8) := by decide
theorem test_V56_lh_sign : ok 0x00229303#32 [(5, 0x80000100#32)] [(0x80000102, 0x34#8), (0x80000103, 0x80#8)]
    0x80000004#32 [(5, 0x80000100#32), (6, 0xFFFF8034#32)] [(0x80000102, 0x34#8), (0x80000103, 0x80#8)] := by decide
theorem test_V71_lh_align_check :
    faults (st aligned 0x80000000 0x00129303#32 0x80000000#32 [(5, 0x80000100#32)] [])
      (.memoryFault .load 0x80000101#32 .w16) := by decide
theorem test_V74_lw_same_register :
    ok 0x0002A283#32 [(5, 0x80000100#32)] (cells 0x80000100 0xEF#8 0xBE#8 0xAD#8 0xDE#8) 0x80000004#32
      [(5, 0xDEADBEEF#32)] (cells 0x80000100 0xEF#8 0xBE#8 0xAD#8 0xDE#8) := by decide
theorem test_V64_lw_straddles_the_end :
    faults (st region 0x80000000 0x0002A303#32 0x80000000#32 [(5, 0x8000FFFE#32)] [])
      (.memoryFault .load 0x8000FFFE#32 .w32) := by decide
theorem test_V9_lbu : ok 0x0002C303#32 [(5, 0x80000100#32)] [(0x80000100, 0xFF#8)] 0x80000004#32
    [(5, 0x80000100#32), (6, 0xFF#32)] [(0x80000100, 0xFF#8)] := by decide
theorem test_V60_lhu : ok 0x0022D303#32 [(5, 0x80000100#32)] [(0x80000102, 0x34#8), (0x80000103, 0x80#8)]
    0x80000004#32 [(5, 0x80000100#32), (6, 0x8034#32)] [(0x80000102, 0x34#8), (0x80000103, 0x80#8)] := by decide
theorem test_V61_lwu : ok 0x0002E303#32 [(5, 0x80000100#32)] [(0x80000103, 0x80#8)] 0x80000004#32
    [(5, 0x80000100#32), (6, 0x80000000#32)] [(0x80000103, 0x80#8)] := by decide

theorem test_V76_sb : ok 0x007280A3#32 [(5, 0x80000100#32), (7, 0x12345678#32)] [] 0x80000004#32
    [(5, 0x80000100#32), (7, 0x12345678#32)] [(0x80000101, 0x78#8)] := by decide
theorem test_V83_sb_x0 :
    ok 0x00028023#32 [(5, 0x80000100#32)] [(0x80000100, 0xFF#8)] 0x80000004#32 [(5, 0x80000100#32)] [] := by decide
theorem test_V77_sh : ok 0x00729123#32 [(5, 0x80000100#32), (7, 0x12345678#32)] [] 0x80000004#32
    [(5, 0x80000100#32), (7, 0x12345678#32)] [(0x80000102, 0x78#8), (0x80000103, 0x56#8)] := by decide
theorem test_V80_sh_straddles_the_end :
    faults (st region 0x80000000 0x00729023#32 0x80000000#32 [(5, 0x8000FFFF#32), (7, 0xABCD#32)] [(0x8000FFFF, 0x11#8)])
      (.memoryFault .store 0x8000FFFF#32 .w16) := by decide
theorem test_V81_sw_misaligned : ok 0x0072A123#32 [(5, 0x80000100#32), (7, 0xA1B2C3D4#32)] [] 0x80000004#32
    [(5, 0x80000100#32), (7, 0xA1B2C3D4#32)] (cells 0x80000102 0xD4#8 0xC3#8 0xB2#8 0xA1#8) := by decide
theorem test_V79_sw_at_reset_sp :
    faults (st region 0x80000000 0x00712023#32 0x80000000#32 [(2, 0x80010000#32), (7, 0x12345678#32)] [])
      (.memoryFault .store 0x80010000#32 .w32) := by decide

theorem test_V88_addi_wraps : ok 0x00130293#32 [(6, 0x7FFFFFFF#32)] [] 0x80000004#32
    [(6, 0x7FFFFFFF#32), (5, 0x80000000#32)] [] := by decide
theorem test_V3_addi_x0 : moves 0x00528013#32 [(5, 3#32)] 0x80000004#32 := by decide
theorem test_V94_slti : ok 0x00032293#32 [(6, 0x80000000#32)] [] 0x80000004#32
    [(6, 0x80000000#32), (5, 1#32)] [] := by decide
theorem test_V98_sltiu_sign_extended : ok 0xFFF33293#32 [(6, 0xFFFFFFFE#32)] [] 0x80000004#32
    [(6, 0xFFFFFFFE#32), (5, 1#32)] [] := by decide
theorem test_V99_xori : ok 0xFFF34293#32 [(6, 0x12345678#32)] [] 0x80000004#32
    [(6, 0x12345678#32), (5, 0xEDCBA987#32)] [] := by decide
theorem test_V100_ori : ok 0x80036293#32 [(6, 1#32)] [] 0x80000004#32 [(6, 1#32), (5, 0xFFFFF801#32)] [] := by decide
theorem test_V101_andi : ok 0xFF037293#32 [(6, 0x12345678#32)] [] 0x80000004#32
    [(6, 0x12345678#32), (5, 0x12345670#32)] [] := by decide
theorem test_V14_slli_raw : ok 0xFE331293#32 [(6, 15#32)] [] 0x80000004#32 [(6, 15#32), (5, 0x78#32)] [] := by decide
theorem test_V105_srli : ok 0x01F35293#32 [(6, 0x80000000#32)] [] 0x80000004#32
    [(6, 0x80000000#32), (5, 1#32)] [] := by decide
theorem test_V107_srai : ok 0x41F35293#32 [(6, 0x80000000#32)] [] 0x80000004#32
    [(6, 0x80000000#32), (5, 0xFFFFFFFF#32)] [] := by decide

theorem test_V113_add_same_registers : ok 0x005282B3#32 [(5, 0x40000000#32)] [] 0x80000004#32
    [(5, 0x80000000#32)] [] := by decide
theorem test_V114_sub_wraps : ok 0x407302B3#32 [(6, 0x80000000#32), (7, 1#32)] [] 0x80000004#32
    [(6, 0x80000000#32), (7, 1#32), (5, 0x7FFFFFFF#32)] [] := by decide
theorem test_V116_sll_by_32 : ok 0x007312B3#32 [(6, 1#32), (7, 32#32)] [] 0x80000004#32
    [(6, 1#32), (7, 32#32), (5, 1#32)] [] := by decide
theorem test_V118_sll_any_funct7 : ok 0x407312B3#32 [(6, 1#32), (7, 4#32)] [] 0x80000004#32
    [(6, 1#32), (7, 4#32), (5, 16#32)] [] := by decide
theorem test_V119_slt : ok 0x007322B3#32 [(6, 0x80000000#32), (7, 0x7FFFFFFF#32)] [] 0x80000004#32
    [(6, 0x80000000#32), (7, 0x7FFFFFFF#32), (5, 1#32)] [] := by decide
theorem test_V121_sltu : ok 0x007032B3#32 [(7, 5#32)] [] 0x80000004#32 [(7, 5#32), (5, 1#32)] [] := by decide
theorem test_V123_xor : ok 0x006342B3#32 [(6, 0x12345678#32)] [] 0x80000004#32 [(6, 0x12345678#32)] [] := by decide
theorem test_V124_srl : ok 0x007352B3#32 [(6, 0xF0000000#32), (7, 0x24#32)] [] 0x80000004#32
    [(6, 0xF0000000#32), (7, 0x24#32), (5, 0x0F000000#32)] [] := by decide
theorem test_V125_sra : ok 0x407352B3#32 [(6, 0xF0000000#32), (7, 0x24#32)] [] 0x80000004#32
    [(6, 0xF0000000#32), (7, 0x24#32), (5, 0xFF000000#32)] [] := by decide
theorem test_V128_or : ok 0x027362B3#32 [(6, 0xF0#32), (7, 0x0F#32)] [] 0x80000004#32
    [(6, 0xF0#32), (7, 0x0F#32), (5, 0xFF#32)] [] := by decide
theorem test_V129_and : ok 0x000372B3#32 [(6, 0xFFFFFFFF#32)] [] 0x80000004#32 [(6, 0xFFFFFFFF#32)] [] := by decide

theorem test_V131_fence : moves 0x0FF0000F#32 [] 0x80000004#32 := by decide
theorem test_V134_csrrw : moves 0x7FF31073#32 [(6, 1#32)] 0x80000004#32 := by decide
theorem test_V133_csrrs : moves 0xC00022F3#32 [(5, 0x11111111#32)] 0x80000004#32 := by decide
theorem test_V136_csrrc : moves 0x001332F3#32 [(5, 0x11111111#32), (6, 0xFFFFFFFF#32)] 0x80000004#32 := by decide
theorem test_V137_csrrwi : moves 0x340FD2F3#32 [(5, 0x11111111#32)] 0x80000004#32 := by decide
theorem test_V138_csrrsi : moves 0xF140E073#32 [] 0x80000004#32 := by decide
theorem test_V135_csrrci : moves 0x3003F2F3#32 [(5, 0x11111111#32)] 0x80000004#32 := by decide
theorem test_V139_ecall : moves 0x00000073#32 [] 0x80000004#32 := by decide
theorem test_V140_ebreak : moves 0x00100073#32 [] 0x80000004#32 := by decide

/-! ## Fetch faults and priority -/

theorem test_V149_fetch_straddles_the_end :
    faults ⟨regsOf [], 0x8000FFFE#32, [], region⟩ (.memoryFault .fetch 0x8000FFFE#32 .w32) := by decide
theorem test_V150_fetch_below_base :
    faults ⟨regsOf [], 0x7FFFFFFC#32, [], region⟩ (.memoryFault .fetch 0x7FFFFFFC#32 .w32) := by decide
theorem test_V151_fetch_align_check :
    faults ⟨regsOf [], 0x80000002#32, [], aligned⟩ (.memoryFault .fetch 0x80000002#32 .w32) := by decide
theorem test_V152_fetch_misaligned :
    faults ⟨regsOf [], 0x80000002#32, memOf (cells 0x80000000 0x93#8 0x02#8 0x50#8 0x00#8 ++
      cells 0x80000004 0x13#8 0x00#8 0x00#8 0x00#8), region⟩ (.illegalInstruction 0x00130050#32) := by decide
theorem test_V153_illegal_before_data :
    faults (st region 0x80000000 0x0002B303#32 0x80000000#32 [] []) (.illegalInstruction 0x0002B303#32) := by decide
theorem test_V154_data_after_fetch :
    faults (st region 0x8000FFFC 0x0002A303#32 0x8000FFFC#32 [(5, 0x90000000#32)] [])
      (.memoryFault .load 0x90000000#32 .w32) := by decide

/-! ## The host's probe -/

theorem test_probe_decodes : decodeTableWord 32 0x00A00293 = some (.addi 5#5 0#5 10#12) := by decide
/-- V4 from reset: x2 keeps its reset value (R35), x5 gets 10. -/
theorem test_probe_runs : steps (State.reset.withFetchWord 32 0x00A00293)
    (st region 0x80000000 0x00A00293#32 0x80000004#32 [(2, 0x80010000#32), (5, 10#32)] []) := by decide

/-! ## The statements' hypotheses are met

One theorem for each statement of Obligations.lean that has hypotheses, named after it, with a concrete state and operands
that meet them together; a statement of several clauses gets each clause, at a boundary of its range. -/

/-- The word at 0x80000000 and the PC there; x5 is `a`, no other byte is listed. -/
def at5 (w a : Word) : State := st region 0x80000000 w 0x80000000#32 [(5, a)] []

/-- `jal x1, -1048576`: its target 0x7FF00000 is outside the region (V28). -/
def jalOut : State := at5 0x800000EF#32 0#32

theorem test_witness_DecodeInvertsEncode :
    (Instr.jal 31#5 0x1FFFFE#21).wf = true ∧ (Instr.beq 0#5 31#5 0#13).wf = true := by decide

theorem test_witness_EncodeInvertsDecodeOnKeptBits : decode 0xFE331293#32 = .ok (.slli 5#5 6#5 3#5) := by decide

theorem test_witness_OpcodeTableDecidesDecoding :
    (∃ r ∈ opcodeTable, 0x00100073#32 &&& r.mask = r.pattern) ∧
    decode 0x00100073#32 = .ok .ebreak ∧ decode 0#32 = .error .undefinedOpcode := by decide

theorem test_witness_DontCareBitsDoNotMatter :
    decode 0x00331293#32 = .ok (.slli 5#5 6#5 3#5) ∧
    0x00331293#32 &&& usedBits (.slli 5#5 6#5 3#5) = 0xFE331293#32 &&& usedBits (.slli 5#5 6#5 3#5) := by decide

/-- One word of each class (a) to (g) of R97, and one whose bits 1:0 are not 11. -/
theorem test_witness_IllegalWordsAreExactlyTheListedClasses :
    Illegal 0xFFFFFFFF#32 ∧ Illegal 0x0020A463#32 ∧ Illegal 0x0002F303#32 ∧ Illegal 0x0072B023#32 ∧
    Illegal 0x42435293#32 ∧ Illegal 0x027302B3#32 ∧ Illegal 0x00004073#32 ∧
    (1#32).extractLsb' 0 2 ≠ 3#2 := by
  refine ⟨?_, ?_, ?_, ?_, ?_, ?_, ?_, by decide⟩ <;> dsimp only [Illegal] <;> decide

/-- The first and last bit of every range the statement's chains cut 0 .. 31 into. -/
theorem test_witness_ImmediatesAreAssembledFromTheirBits :
    ∀ i ∈ [0, 1, 4, 5, 10, 11, 12, 19, 20, 31], i < 32 := by decide

/-- Every Encodes clause is met: each row's own pattern has the pattern's bits under the mask. -/
theorem test_witness_Encodes : ∀ r ∈ opcodeTable, r.pattern &&& r.mask = r.pattern := by decide

theorem test_witness_StepRunsTheDecodedInstruction :
    Admits (at5 0x00128293#32 0#32).cfg (at5 0x00128293#32 0#32).pc 4 ∧
    decode (word (at5 0x00128293#32 0#32) (at5 0x00128293#32 0#32).pc.toNat) = .ok (.addi 5#5 5#5 1#12) := by
  unfold Admits; decide

/-- The last word of the region is admitted, the next byte's is not; with ALIGN_CHECK an odd half is not. -/
theorem test_witness_FetchIsTheWordLoadAtThePc :
    Admits region 0x8000FFFC#32 4 ∧ ¬ Admits region 0x8000FFFD#32 4 ∧ ¬ Admits region 0x7FFFFFFF#32 4 ∧
    Admits aligned 0x80000004#32 4 ∧ ¬ Admits aligned 0x80000002#32 4 := by unfold Admits; decide

theorem test_witness_IllegalInstructionComesFromDecodeAlone :
    decode 0#32 = .error .undefinedOpcode ∧ Admits State.reset.cfg State.reset.pc 4 ∧
    decode (word State.reset State.reset.pc.toNat) = .error .undefinedOpcode ∧
    decode 0x00000073#32 = .ok .ecall := by unfold Admits; decide

/-- The three kinds of report. -/
theorem test_witness_FaultsAreReportedInStepOrder :
    step ⟨regsOf [], 0x80010000#32, [], region⟩ = .fault (.memoryFault .fetch 0x80010000#32 .w32) ∧
    step State.reset = .fault (.illegalInstruction 0#32) ∧
    step (at5 0x0002A303#32 0x8000FFFD#32) = .fault (.memoryFault .load 0x8000FFFD#32 .w32) := ⟨rfl, rfl, rfl⟩

theorem test_witness_FaultingCallChangesNothing :
    stepCall State.reset = some (State.reset, .fault (.illegalInstruction 0#32)) ∧
    executeCall 0#32 State.reset = some (State.reset, .fault (.illegalInstruction 0#32)) ∧
    (∃ t, stepCall (at5 0x00128293#32 0#32) = some (t, .ok)) ∧
    ∃ t, executeCall 0x00128293#32 State.reset = some (t, .ok) := ⟨rfl, rfl, ⟨_, rfl⟩, ⟨_, rfl⟩⟩

theorem test_witness_OnlyARefusedDataAccessFaults (s : State) : dataAccess s (.add 1#5 2#5 3#5) = none := rfl

theorem test_witness_JalLinksAndJumps :
    (∃ t, exec (.jal 1#5 0x100000#21) jalOut = .next t) ∧
    ¬ Admits jalOut.cfg (jalOut.pc + (0x100000#21).signExtend 32) 4 := by
  refine ⟨⟨_, rfl⟩, ?_⟩
  unfold Admits; decide

theorem test_witness_JalrLinksAndJumpsFromTheOldRegister :
    ∃ t, exec (.jalr 5#5 5#5 1#12) (at5 0#32 0x8000FFFD#32) = .next t ∧ ¬ Admits t.cfg t.pc 4 := by
  refine ⟨(((at5 0#32 0x8000FFFD#32).writeReg 5#5 0x80000004#32).setPc 0x8000FFFE#32), rfl, ?_⟩
  unfold Admits; decide

/-- LB, LBU and SB: the last byte of the region, and one further. -/
theorem test_witness_byte_accesses :
    Admits region (address 5#5 0#12 (at5 0#32 0x8000FFFF#32)) 1 ∧ (at5 0#32 0x8000FFFF#32).mem.wf ∧
    ¬ Admits region (address 5#5 1#12 (at5 0#32 0x8000FFFF#32)) 1 := by unfold Admits; decide

/-- LH, LHU and SH: the last half of the region, and one byte further. -/
theorem test_witness_half_accesses :
    Admits region (address 5#5 0#12 (at5 0#32 0x8000FFFE#32)) 2 ∧ (at5 0#32 0x8000FFFE#32).mem.wf ∧
    ¬ Admits region (address 5#5 1#12 (at5 0#32 0x8000FFFE#32)) 2 := by unfold Admits; decide

/-- LW, LWU and SW: the last word of the region, and one byte further. -/
theorem test_witness_word_accesses :
    Admits region (address 5#5 0#12 (at5 0#32 0x8000FFFC#32)) 4 ∧ (at5 0#32 0x8000FFFC#32).mem.wf ∧
    ¬ Admits region (address 5#5 1#12 (at5 0#32 0x8000FFFC#32)) 4 := by unfold Admits; decide

theorem test_witness_OnlyJumpsAndBranchesMoveThePcElsewhere :
    ∃ t, exec (.beq 0#5 0#5 8#13) State.reset = .next t := ⟨_, rfl⟩

theorem test_witness_RegisterPortsGateRegisterZero : (31#5 : Reg) ≠ 0#5 := by decide

theorem test_witness_OnlyTheDestinationRegisterChanges :
    (∃ t, exec (.lui 1#5 1#20) State.reset = .next t) ∧ destination (.lui 1#5 1#20) ≠ some 31#5 ∧
    (∃ t, exec (.sw 0#5 5#5 0#12) (at5 0#32 0x8000FFFC#32) = .next t) ∧
    destination (.sw 0#5 5#5 0#12) ≠ some 5#5 :=
  ⟨⟨_, rfl⟩, by decide, ⟨_, rfl⟩, by decide⟩

/-- Two states that differ in x6, which `addi x7, x5, 1` does not read; it completes. A load of each faults alike. -/
theorem test_witness_OnlyTheSourceRegistersMatter :
    let s : State := ⟨regsOf [(5, 1#32), (6, 2#32)], 0x80000000#32, [], region⟩
    let u : State := ⟨regsOf [(5, 1#32), (6, 3#32)], 0x80000000#32, [], region⟩
    s ≠ u ∧ s.mem.wf ∧ u.mem.wf ∧ (∀ r ∈ sources (.addi 7#5 5#5 1#12), s.readReg r = u.readReg r) ∧
    s.pc = u.pc ∧ s.cfg = u.cfg ∧ (∀ a, s.mem.read a = u.mem.read a) ∧
    (∃ t, exec (.addi 7#5 5#5 1#12) s = .next t) ∧ destination (.addi 7#5 5#5 1#12) = some 7#5 ∧
    (∀ r ∈ sources (.lw 7#5 5#5 0#12), s.readReg r = u.readReg r) ∧
    exec (.lw 7#5 5#5 0#12) s = .fault (.memoryFault .load 1#32 .w32) :=
  ⟨by decide, by decide, by decide, by decide, rfl, rfl, fun _ => rfl, ⟨_, rfl⟩, rfl, by decide, rfl⟩

theorem test_witness_OnlyStoresChangeMemory :
    (∃ t, exec (.lw 6#5 5#5 0#12) (at5 0#32 0x8000FFFC#32) = .next t) ∧
    ∀ a w, dataAccess (at5 0#32 0x8000FFFC#32) (.lw 6#5 5#5 0#12) ≠ some (.store, a, w) :=
  ⟨⟨_, rfl⟩, fun _ _ h => by cases h⟩

theorem test_witness_StepsKeepTheParameters : ∃ t, step (at5 0x00128293#32 0#32) = .next t := ⟨_, rfl⟩

/-- The last byte, half and word of the region, and two words that agree on their low byte. -/
theorem test_witness_BusMovesLittleEndianBytes :
    Admits region 0x8000FFFF#32 1 ∧ Admits region 0x8000FFFE#32 2 ∧ Admits region 0x8000FFFC#32 4 ∧
    State.reset.mem.wf ∧ Admits region 0x8000FFFF#32 (byteCount .w8) ∧
    ∀ j, j < 8 * byteCount .w8 → (0x178#32).getLsbD j = (0x278#32).getLsbD j := by
  unfold Admits; decide

/-- The last half of the region lies in it; one byte further does not; with ALIGN_CHECK an odd half is refused. -/
theorem test_witness_BusRefusesExactlyTheInadmissible :
    (∀ j, j < byteCount .w16 → inRegion region ((0x8000FFFE#32).toNat + j)) ∧
    (¬ ∀ j, j < byteCount .w16 → inRegion region ((0x8000FFFF#32).toNat + j)) ∧
    ¬ (aligned.alignCheck = true → (0x80000001#32).toNat % byteCount .w16 = 0) := by decide

theorem test_witness_MixedWidthsSeeTheSameBytes :
    State.reset.mem.wf ∧ State.reset.cfg.valid ∧
    ∃ t, busStore State.reset 0x8000FFFC#32 .w32 0x12345678#32 = .ok t :=
  ⟨by decide, by decide, ⟨_, rfl⟩⟩

theorem test_witness_StoreThenLoadReturnsTheValue :
    (at5 0#32 0x80000100#32).mem.wf ∧
    ∃ t, exec (.sw 5#5 5#5 0#12) (at5 0#32 0x80000100#32) = .next t ∧
      address 5#5 0#12 t = address 5#5 0#12 (at5 0#32 0x80000100#32) :=
  ⟨by decide, _, rfl, rfl⟩

theorem test_witness_NextFetchSeesTheStore :
    (at5 0#32 0x80000004#32).mem.wf ∧ (∃ t, exec (.sw 5#5 5#5 0#12) (at5 0#32 0x80000004#32) = .next t) ∧
    address 5#5 0#12 (at5 0#32 0x80000004#32) = (at5 0#32 0x80000004#32).pc + 4#32 :=
  ⟨by decide, ⟨_, rfl⟩, by decide⟩

theorem test_witness_CanonicalMemoryIsItsBytes :
    Memory.wf [(1, 2#8), (3, 4#8)] ∧ Memory.write [(3, 4#8)] 1 2#8 = [(1, 2#8), (3, 4#8)] := by decide

theorem test_witness_ConstructionGivesTheResetValues : (31#5 : Reg) ≠ 2#5 ∧ (0#5 : Reg) ≠ 2#5 := by decide

/-- A region of four bytes holds the first word; one of three does not. -/
theorem test_witness_FirstStepFetchesAtMemBase :
    Admits ⟨0#32, 4, true⟩ 0#32 4 ∧ ¬ Admits ⟨0#32, 3, false⟩ 0#32 4 := by unfold Admits; decide

/-- Both clauses at once: the top region that ends at 2^32, with ALIGN_CHECK; and the whole space, the first clause's
exception (notes/assumptions/27.md). -/
theorem test_witness_ResetStackPointerIsOnePastTheTop :
    let c : Config := ⟨0xFFFFFFFC#32, 4, true⟩
    c.valid ∧ Memory.wf [] ∧ c.memSize < 2 ^ 32 ∧ 4 ≤ c.memSize ∧ (c.memBase.toNat + c.memSize) % 4 = 0 := by decide

theorem test_whole_space_holds_the_reset_sp :
    let s := State.construct ⟨0#32, 2 ^ 32, false⟩ []
    s.cfg.valid ∧ s.readReg 2#5 = 0#32 ∧ (∃ t, exec (.sw 0#5 2#5 0#12) s = .next t) :=
  ⟨by decide, by decide, ⟨_, rfl⟩⟩

theorem test_witness_ConstructedStatesAreSound :
    region.valid ∧ Memory.wf [(0x8000FFFF, 1#8)] ∧ Memory.within region [(0x8000FFFF, 1#8)] := by decide

theorem test_witness_StepKeepsStatesSound :
    (at5 0x00128293#32 0#32).Sound ∧ ∃ t, step (at5 0x00128293#32 0#32) = .next t :=
  ⟨⟨by decide, by decide, by decide, by decide⟩, ⟨_, rfl⟩⟩

theorem test_witness_StepKeepsThePcEven :
    (at5 0x00528067#32 0x80000100#32).pc.getLsbD 0 = false ∧ ∃ t, step (at5 0x00528067#32 0x80000100#32) = .next t :=
  ⟨by decide, ⟨_, rfl⟩⟩

theorem test_witness_SelfLoopRunsForever :
    Admits (at5 0x6F#32 0#32).cfg (at5 0x6F#32 0#32).pc 4 ∧
    word (at5 0x6F#32 0#32) (at5 0x6F#32 0#32).pc.toNat = 0x0000006F#32 := by unfold Admits; decide

theorem test_witness_HostActionsAreGatedAndSound :
    State.reset.mem.wf ∧ Admits State.reset.cfg 0x8000FFFC#32 (byteCount .w32) ∧
    ¬ Admits State.reset.cfg 0x8000FFFD#32 (byteCount .w32) ∧
    State.reset.Sound ∧ ∃ t, hostAct State.reset (.store 0x8000FFFC#32 .w32 1#32) = .ok t :=
  ⟨by decide, by unfold Admits; decide, by unfold Admits; decide, ⟨by decide, by decide, by decide, by decide⟩, ⟨_, rfl⟩⟩

theorem test_witness_PlacedWordIsTheNextToRun :
    State.reset.mem.wf ∧ Admits State.reset.cfg State.reset.pc 4 ∧ 0xFFFFFFFF < 2 ^ 32 := by unfold Admits; decide

/-- A step and a word that fault, a step and a word that complete, an access of the host that succeeds and one that the
bus refuses. -/
theorem test_witness_EveryReportIsRecordedAndNoneIsCleared :
    step (Observed.start State.reset).state = .fault (.illegalInstruction 0#32) ∧
    (∃ t, step (Observed.start (at5 0x00128293#32 0#32)).state = .next t) ∧
    execute 0#32 (Observed.start State.reset).state = .fault (.illegalInstruction 0#32) ∧
    (∃ t, execute 0x00128293#32 (Observed.start State.reset).state = .next t) ∧
    (∃ t, hostAct State.reset (.store 0x8000FFFC#32 .w32 1#32) = .ok t) ∧
    hostAct State.reset (.store 0x8000FFFD#32 .w32 1#32) = .error (.memoryFault .store 0x8000FFFD#32 .w32) :=
  ⟨rfl, ⟨_, rfl⟩, rfl, ⟨_, rfl⟩, ⟨_, rfl⟩, rfl⟩

/-- The last step of program P6 (95_test_vectors.md) when the host has skipped the faulting load: the illegal word's
report joins the record, which still holds the load's. -/
theorem test_P6_reports :
    ((Observed.mk ⟨regsOf [(5, 0x80010000#32)], 0x80000010#32, [], region⟩
        [.memoryFault .load 0x80010000#32 .w32]).event .step).map Observed.reports =
      some [.memoryFault .load 0x80010000#32 .w32, .illegalInstruction 0#32] := by decide

end Sys2Proof.Tests
end

section
/-! PROOFS. The family of spec/10_state.md: the register ports with the reset values (O40), and the observation's record
of the reports (O60). -/

namespace Sys2Proof.Machine

/-! ## The reset values -/

/-- A constructed state's x2 holds the end of the region, taken mod 2^32, and every other register holds 0 (rule R35). -/
theorem readReg_construct (c : Config) (m : Memory) (r : Reg) :
    (State.construct c m).readReg r =
      if r = 2#5 then BitVec.ofNat 32 (c.memBase.toNat + c.memSize) else 0#32 := by
  by_cases h2 : r = 2#5
  · subst h2
    simp [State.readReg, State.construct, BitVec.ofNat_add]
  · have hslot : 2 ≠ r.toNat := fun e => h2 (BitVec.eq_of_toNat_eq e.symm)
    simp [State.readReg, State.construct, h2, hslot]

/-- Settles O40: R21 and R22 are the laws of the two register ports, R35 is `readReg_construct`. -/
theorem registerPortsGateRegisterZero : Obligations.RegisterPortsGateRegisterZero := by
  refine ⟨readReg_zero, writeReg_zero, fun s r q v hr => ?_, readReg_construct⟩
  simp [readReg_writeReg, hr]

/-! ## No call is refused -/

theorem loadWith_ne_refused (w : Width) (e : LoadExt) (rd rs1 : Reg) (imm : BitVec 12) (s : State) (r : Refusal) :
    loadWith w e rd rs1 imm s ≠ .refused r := by
  rw [loadWith_eq]
  split <;> nofun

theorem storeWith_ne_refused (w : Width) (rs2 rs1 : Reg) (imm : BitVec 12) (s : State) (r : Refusal) :
    storeWith w rs2 rs1 imm s ≠ .refused r := by
  rw [storeWith_eq]
  split <;> nofun

/-- Every instruction has its meaning: only loads and stores can do anything but commit, and they fault. -/
theorem exec_ne_refused (i : Instr) (s : State) (r : Refusal) : exec i s ≠ .refused r := by
  cases i
  case lb | lbu | lh | lhu | lw | lwu => exact loadWith_ne_refused _ _ _ _ _ s r
  case sb | sh | sw => exact storeWith_ne_refused _ _ _ _ s r
  all_goals nofun

theorem step_ne_refused (s : State) (r : Refusal) : step s ≠ .refused r := by
  unfold step
  split
  · exact exec_ne_refused _ s r
  · nofun

theorem execute_ne_refused (w : Word) (s : State) (r : Refusal) : execute w s ≠ .refused r := by
  unfold execute
  split
  · exact exec_ne_refused _ s r
  · nofun

/-! ## What a call returns joins the observation -/

/-- A result that is no refusal settles: it has a state and a status. -/
theorem exists_settled (s : State) {r : Result} (h : ∀ q, r ≠ .refused q) : ∃ c, settled s r = some c := by
  cases r with
  | next t => exact ⟨_, settled_next s t⟩
  | fault f => exact ⟨_, settled_fault s f⟩
  | refused q => exact absurd rfl (h q)

/-- A call that completes leaves the record as it was. -/
theorem map_afterCall_next (o : Observed) (t : State) :
    (settled o.state (.next t)).map o.afterCall = some ⟨t, o.reports⟩ := by
  simp [Observed.afterCall]

/-- A call that faults leaves the state as it was, and its report joins the record. -/
theorem map_afterCall_fault (o : Observed) (f : Fault) :
    (settled o.state (.fault f)).map o.afterCall = some ⟨o.state, o.reports ++ [f]⟩ := rfl

/-- The state after a call is the one the call returns, whatever the record. -/
theorem map_afterCall_state (o : Observed) (r : Result) :
    ((settled o.state r).map o.afterCall).map Observed.state = (settled o.state r).map Prod.fst := by
  cases r <;> rfl

/-! ## Events -/

theorem event_step (o : Observed) : o.event .step = (settled o.state (step o.state)).map o.afterCall := rfl

theorem event_execute (o : Observed) (w : Word) :
    o.event (.execute w) = (settled o.state (execute w o.state)).map o.afterCall := rfl

theorem event_act (o : Observed) (h : HostAction) : o.event (.act h) = some (o.afterAct h) := rfl

theorem event_restart (o : Observed) :
    o.event .restart = some ⟨State.construct o.state.cfg o.state.mem, o.reports⟩ := rfl

theorem afterAct_of_ok {o : Observed} {h : HostAction} {t : State} (hok : hostAct o.state h = .ok t) :
    o.afterAct h = ⟨t, o.reports⟩ := by
  simp [Observed.afterAct, hok]

theorem afterAct_of_error {o : Observed} {h : HostAction} {f : Fault} (herr : hostAct o.state h = .error f) :
    o.afterAct h = o := by
  simp [Observed.afterAct, herr]

/-- Every event is defined, since no call is refused. -/
theorem exists_event (o : Observed) (e : HostEvent) : ∃ p, o.event e = some p := by
  cases e with
  | step =>
    obtain ⟨c, hc⟩ := exists_settled o.state (step_ne_refused o.state)
    exact ⟨o.afterCall c, by rw [event_step, hc, Option.map_some]⟩
  | execute w =>
    obtain ⟨c, hc⟩ := exists_settled o.state (execute_ne_refused w o.state)
    exact ⟨o.afterCall c, by rw [event_execute, hc, Option.map_some]⟩
  | act h => exact ⟨_, event_act o h⟩
  | restart => exact ⟨_, event_restart o⟩

/-- The state one event leaves is the same from every two observations of one state: the record has no part in it. -/
theorem event_state_congr {o q : Observed} (hs : o.state = q.state) (e : HostEvent) :
    (o.event e).map Observed.state = (q.event e).map Observed.state := by
  cases e with
  | step => rw [event_step, event_step, map_afterCall_state, map_afterCall_state, hs]
  | execute w => rw [event_execute, event_execute, map_afterCall_state, map_afterCall_state, hs]
  | act h => rw [event_act, event_act, Option.map_some, Option.map_some, afterAct_state, afterAct_state, hs]
  | restart => rw [event_restart, event_restart, Option.map_some, Option.map_some, hs]

/-! ## Runs of events -/

/-- Every run is defined, and its record begins with the one it started from. -/
theorem run_reports (o : Observed) (es : List HostEvent) :
    ∃ p new, o.run es = some p ∧ p.reports = o.reports ++ new := by
  induction es generalizing o with
  | nil => exact ⟨o, [], run_nil o, (List.append_nil _).symm⟩
  | cons e es ih =>
    obtain ⟨q, hq⟩ := exists_event o e
    obtain ⟨first, hfirst⟩ := event_reports hq
    obtain ⟨p, rest, hp, hrest⟩ := ih q
    refine ⟨p, first ++ rest, ?_, ?_⟩
    · rw [run_cons, hq, Option.bind_some, hp]
    · rw [hrest, hfirst, List.append_assoc]

/-- The state a run leaves depends on the first state and the events alone. -/
theorem run_state_congr {o q : Observed} (hs : o.state = q.state) (es : List HostEvent) :
    (o.run es).map Observed.state = (q.run es).map Observed.state := by
  induction es generalizing o q with
  | nil => rw [run_nil, run_nil, Option.map_some, Option.map_some, hs]
  | cons e es ih =>
    obtain ⟨o', ho⟩ := exists_event o e
    obtain ⟨q', hq⟩ := exists_event q e
    have hs' : o'.state = q'.state := by simpa [ho, hq] using event_state_congr hs e
    rw [run_cons, run_cons, ho, hq, Option.bind_some, Option.bind_some, ih hs']

/-- Settles O60: the first seven clauses are the equations of one event; the last two are inductions over the events. -/
theorem everyReportIsRecordedAndNoneIsCleared : Obligations.EveryReportIsRecordedAndNoneIsCleared := by
  refine ⟨fun o f h => ?stepFault, fun o t h => ?stepNext, fun o w f h => ?executeFault, fun o w t h => ?executeNext,
    fun o a t h => ?actOk, fun o a f h => ?actError, event_restart, run_reports,
    fun s l m es => run_state_congr (o := ⟨s, l⟩) (q := ⟨s, m⟩) rfl es⟩
  case stepFault => rw [event_step, h, map_afterCall_fault]
  case stepNext => rw [event_step, h, map_afterCall_next]
  case executeFault => rw [event_execute, h, map_afterCall_fault]
  case executeNext => rw [event_execute, h, map_afterCall_next]
  case actOk => rw [event_act, afterAct_of_ok h]
  case actError => rw [event_act, afterAct_of_error h]

end Sys2Proof.Machine
end

section
/-! PROOFS. The family of spec/20_memory.md: what the bus moves on an admitted access (O45). -/

namespace Sys2Proof.Machine

open Sys2Proof.Claims

/-! ## The statements' vocabulary and the model's -/

theorem byteCount_eq_bytes (w : Width) : byteCount w = w.bytes := by
  cases w <;> rfl

/-- The formula of rule R51 in the statements is the bus's own condition. -/
theorem admits_iff_admitted (c : Config) (a : Word) (n : Nat) : Admits c a n ↔ admitted c a n = true :=
  (admitted_iff c a n).symm

theorem busLoad_of_admits {s : State} {a : Word} {w : Width} (k : AccessKind) (h : Admits s.cfg a w.bytes) :
    busLoad s k a w = .ok (s.mem.readLE a.toNat w) :=
  (busLoad_ok_iff s k a w _).mpr ⟨(admits_iff_admitted _ _ _).mp h, rfl⟩

theorem busStore_of_admits {s : State} {a : Word} {w : Width} (v : Word) (h : Admits s.cfg a w.bytes) :
    busStore s a w v = .ok { s with mem := s.mem.writeLE a.toNat v w } :=
  (busStore_ok_iff s _ a w v).mpr ⟨(admits_iff_admitted _ _ _).mp h, rfl⟩

/-! ## A store ignores the bits above its access -/

theorem byte_congr {v v' : Word} {k : Nat} (h : ∀ j, j < 8 → v'.getLsbD (8 * k + j) = v.getLsbD (8 * k + j)) :
    v'.byte k = v.byte k := by
  apply BitVec.eq_of_getLsbD_eq
  intro j hj
  simp only [Word.byte, BitVec.getLsbD_extractLsb', h j hj]

/-- Values with the same bits in the bytes of the access leave the same memory (rule R53). -/
theorem writeLE_congr (m : Memory) (a : Nat) {v v' : Word} {w : Width}
    (h : ∀ j, j < 8 * w.bytes → v'.getLsbD j = v.getLsbD j) : m.writeLE a v' w = m.writeLE a v w := by
  have hbyte (k : Nat) (hk : k < w.bytes) : v'.byte k = v.byte k :=
    byte_congr fun j hj => h (8 * k + j) (by omega)
  cases w with
  | w8 => simp only [Memory.writeLE, hbyte 0 (by decide)]
  | w16 => simp only [Memory.writeLE, hbyte 0 (by decide), hbyte 1 (by decide)]
  | w32 =>
    simp only [Memory.writeLE, hbyte 0 (by decide), hbyte 1 (by decide), hbyte 2 (by decide), hbyte 3 (by decide)]

/-- Settles O45: the loads are the bus's answer at each width (R52); the store's bytes, its frame and the bits it ignores
are the laws of `writeLE` (R53). -/
theorem busMovesLittleEndianBytes : Obligations.BusMovesLittleEndianBytes := by
  refine fun s k a => ⟨busLoad_of_admits (w := .w8) k, busLoad_of_admits (w := .w16) k, busLoad_of_admits (w := .w32) k,
    fun w v hwf hadm => ?store⟩
  case store =>
    rw [byteCount_eq_bytes] at hadm ⊢
    refine ⟨_, busStore_of_admits v hadm, fun j hj => ?inside, fun b hb => ?outside, fun v' hlow => ?ignored⟩
    case inside => exact read_writeLE_inside hwf a.toNat v w hj
    case outside => exact read_writeLE_outside s.mem a.toNat v w hb
    case ignored => rw [busStore_of_admits v' hadm, writeLE_congr s.mem a.toNat hlow]

end Sys2Proof.Machine
end

section
/-! PROOFS. The family of spec/40_datapath.md: the fetch phase (O9) and the decode phase (O10) of a step. -/

namespace Sys2Proof.Machine

open Sys2Proof.Claims

/-! ## The fetch phase -/

theorem busLoad_of_not_admits {s : State} {a : Word} {w : Width} (k : AccessKind) (h : ¬ Admits s.cfg a w.bytes) :
    busLoad s k a w = .error (.memoryFault k a w) := by
  rw [admits_iff_admitted, Bool.not_eq_true] at h
  exact (busLoad_error_iff s k a w _).mpr ⟨h, rfl⟩

theorem fetch_of_admits {s : State} (h : Admits s.cfg s.pc 4) : fetch s = .ok (word s s.pc.toNat) :=
  busLoad_of_admits (w := .w32) .fetch h

theorem fetch_of_not_admits {s : State} (h : ¬ Admits s.cfg s.pc 4) :
    fetch s = .error (.memoryFault .fetch s.pc .w32) :=
  busLoad_of_not_admits (w := .w32) .fetch h

/-- A step is `execute` of the word it fetched, at the state it fetched from (rules R120, R131). -/
theorem step_of_fetch_ok {s : State} {w : Word} (h : fetch s = .ok w) : step s = execute w s := by
  unfold step fetchDecode execute
  rw [h]

theorem step_of_fetch_error {s : State} {f : Fault} (h : fetch s = .error f) : step s = .fault f := by
  unfold step fetchDecode
  rw [h]
  rfl

theorem step_of_admits {s : State} (h : Admits s.cfg s.pc 4) : step s = execute (word s s.pc.toNat) s :=
  step_of_fetch_ok (fetch_of_admits h)

theorem step_of_not_admits {s : State} (h : ¬ Admits s.cfg s.pc 4) :
    step s = .fault (.memoryFault .fetch s.pc .w32) :=
  step_of_fetch_error (fetch_of_not_admits h)

/-- Settles O9: the bus answers the fetch with the word at the PC or refuses it, and the step follows that answer. -/
theorem fetchIsTheWordLoadAtThePc : Obligations.FetchIsTheWordLoadAtThePc :=
  fun _ => ⟨fun h => ⟨fetch_of_admits h, step_of_admits h⟩, fun h => ⟨fetch_of_not_admits h, step_of_not_admits h⟩⟩

/-! ## The faults of the execute phase -/

theorem loadWith_fault {w : Width} {e : LoadExt} {rd rs1 : Reg} {imm : BitVec 12} {s : State} {f : Fault}
    (h : loadWith w e rd rs1 imm s = .fault f) :
    ¬ Admits s.cfg (address rs1 imm s) (byteCount w) ∧ f = .memoryFault .load (address rs1 imm s) w := by
  rw [loadWith_eq] at h
  rw [byteCount_eq_bytes, admits_iff_admitted]
  split at h
  · cases h
  · next hadm =>
    cases h
    exact ⟨hadm, rfl⟩

theorem storeWith_fault {w : Width} {rs2 rs1 : Reg} {imm : BitVec 12} {s : State} {f : Fault}
    (h : storeWith w rs2 rs1 imm s = .fault f) :
    ¬ Admits s.cfg (address rs1 imm s) (byteCount w) ∧ f = .memoryFault .store (address rs1 imm s) w := by
  rw [storeWith_eq] at h
  rw [byteCount_eq_bytes, admits_iff_admitted]
  split at h
  · cases h
  · next hadm =>
    cases h
    exact ⟨hadm, rfl⟩

/-- The only fault an instruction can raise is the refusal of its own data access (rules R251, R255): every form but the
loads and stores ends in a commit, which completes. -/
theorem exec_fault {i : Instr} {s : State} {f : Fault} (h : exec i s = .fault f) :
    ∃ k a w, dataAccess s i = some (k, a, w) ∧ ¬ Admits s.cfg a (byteCount w) ∧ f = .memoryFault k a w := by
  cases i
  case lb | lbu | lh | lhu | lw | lwu => exact ⟨_, _, _, rfl, loadWith_fault h⟩
  case sb | sh | sw => exact ⟨_, _, _, rfl, storeWith_fault h⟩
  all_goals cases h

theorem exec_ne_illegalInstruction (i : Instr) (s : State) (w : Word) : exec i s ≠ .fault (.illegalInstruction w) := by
  intro h
  obtain ⟨_, _, _, -, -, hf⟩ := exec_fault h
  cases hf

/-! ## The decode phase -/

/-- A legal word runs its instruction (rules R122, R131). -/
theorem execute_of_decode_ok {w : Word} {i : Instr} (s : State) (h : decode w = .ok i) : execute w s = exec i s := by
  unfold execute
  rw [(decodePhase_ok_iff w i).mpr h]

/-- An illegal word is reported, whatever the state (rule R250). -/
theorem execute_of_decode_error {w : Word} {e : Reject} (s : State) (h : decode w = .error e) :
    execute w s = .fault (.illegalInstruction w) := by
  unfold execute
  rw [(decodePhase_error_iff w _).mpr ⟨⟨e, h⟩, rfl⟩]
  rfl

/-- `execute` reports IllegalInstruction of exactly the words the decoder rejects: a legal word runs its instruction,
and no instruction raises it. -/
theorem decode_error_iff_execute_illegal (w : Word) (s : State) :
    (∃ e, decode w = .error e) ↔ execute w s = .fault (.illegalInstruction w) := by
  cases h : decode w with
  | ok i =>
    rw [execute_of_decode_ok s h]
    exact iff_of_false nofun (exec_ne_illegalInstruction i s w)
  | error e => exact iff_of_true ⟨e, rfl⟩ (execute_of_decode_error s h)

/-- Settles O10: `decode_error_iff_execute_illegal` is the clause about `execute`, and a step whose fetch is admitted is
`execute` of the word at the PC. -/
theorem illegalInstructionComesFromDecodeAlone : Obligations.IllegalInstructionComesFromDecodeAlone := by
  refine ⟨decode_error_iff_execute_illegal, fun s hadm => ?_, fun w i s => execute_of_decode_ok s,
    exec_ne_illegalInstruction⟩
  rw [step_of_admits hadm]
  exact decode_error_iff_execute_illegal (word s s.pc.toNat) s

end Sys2Proof.Machine
end

section
/-! PROOFS. The family of spec/41_upper_immediate.md: LUI (O16) and AUIPC (O17). -/

namespace Sys2Proof.Machine

open Sys2Proof.Claims

/-! ## What a commit to a register leaves -/

/-- A register write followed by a PC write changes those two alone; x0 keeps reading 0 (rules R21, R22). -/
theorem regResult_writeReg_setPc (s : State) (rd : Reg) (v next : Word) :
    RegResult s ((s.writeReg rd v).setPc next) rd v next where
  dest := by
    rw [readReg_setPc]
    split
    · next h0 => rw [h0, readReg_zero]
    · next h0 => exact readReg_writeReg_same s rd v h0
  others r hr := readReg_writeReg_other s rd r v hr
  memory a := by rw [setPc_mem, writeReg_mem]
  params := writeReg_cfg s rd v
  pc := setPc_pc _ next

/-- An instruction that in every state commits to `rd` completes there, with what the two muxes select (rules R126,
R129, R130). -/
theorem computes_of_commitReg {i : Instr} {rd : Reg} {wb : State → WbSelect} {next : State → PcSelect}
    (h : ∀ s, exec i s = commitReg s rd (wb s) (next s)) :
    Computes i rd (fun s => wbMux s.pc (wb s)) (fun s => pcMux s.pc (next s)) :=
  fun s => ⟨_, (h s).trans (commitReg_eq s rd (wb s) (next s)), regResult_writeReg_setPc s rd _ _⟩

theorem exec_lui (rd : Reg) (imm : BitVec 20) (s : State) :
    exec (.lui rd imm) s = commitReg s rd (.imm (immU imm)) .seq := rfl

theorem exec_auipc (rd : Reg) (imm : BitVec 20) (s : State) :
    exec (.auipc rd imm) s = commitReg s rd (.pcImm (immU imm)) .seq := rfl

/-! ## The words of the two opcodes -/

/-- A mask that covers the opcode field fixes the word's opcode to the pattern's. -/
theorem opcode_of_and_eq {w m p : Word} (h : w &&& m = p) (hm : Inst.opcode m = BitVec.allOnes 7) :
    Inst.opcode w = Inst.opcode p := by
  rw [← h, opcode_and w m hm]

theorem decode_of_opcode_lui {w : Word} (h : Inst.opcode w = 0b0110111#7) :
    decode w = .ok (.lui (Inst.rd w) (Inst.imm20U w)) := by
  simp only [decode, h]

theorem decode_of_opcode_auipc {w : Word} (h : Inst.opcode w = 0b0010111#7) :
    decode w = .ok (.auipc (Inst.rd w) (Inst.imm20U w)) := by
  simp only [decode, h]

/-- Settles O16: LUI commits the U-immediate and the next PC, and the match and mask fix its opcode. -/
theorem luiLoadsTheUpperImmediate : Obligations.LuiLoadsTheUpperImmediate :=
  ⟨fun rd imm => computes_of_commitReg (exec_lui rd imm),
    fun _ h => decode_of_opcode_lui (opcode_of_and_eq h (by decide))⟩

/-- Settles O17: AUIPC commits its own PC plus the U-immediate and the next PC, and the match and mask fix its opcode. -/
theorem auipcAddsTheUpperImmediateToItsAddress : Obligations.AuipcAddsTheUpperImmediateToItsAddress :=
  ⟨fun rd imm => computes_of_commitReg (exec_auipc rd imm),
    fun _ h => decode_of_opcode_auipc (opcode_of_and_eq h (by decide))⟩

end Sys2Proof.Machine
end

section
/-! PROOFS. The family of spec/42_control_transfer.md: JAL (O18) and the six branches (O20, O21, O22). -/

namespace Sys2Proof.Machine

open Sys2Proof.Claims

/-! ## The fetch after a jump -/

/-- An instruction that computes leaves the state it computes, since `exec` is a function. -/
theorem regResult_of_exec_next {i : Instr} {rd : Reg} {value next : State → Word} {s t : State}
    (h : Computes i rd value next) (hexec : exec i s = .next t) : RegResult s t rd (value s) (next s) := by
  obtain ⟨u, hu, hres⟩ := h s
  obtain rfl : u = t := Host.Outcome.next.inj (hu.symm.trans hexec)
  exact hres

/-- The next step's fetch reports a target that the bus does not admit (rule R168). -/
theorem step_of_regResult_of_not_admits {s t : State} {rd : Reg} {v next : Word} (h : RegResult s t rd v next)
    (hbad : ¬ Admits s.cfg next 4) : step t = .fault (.memoryFault .fetch next .w32) := by
  rw [← h.params, ← h.pc] at hbad
  rw [step_of_not_admits hbad, h.pc]

/-! ## JAL -/

theorem exec_jal (rd : Reg) (off : BitVec 21) (s : State) :
    exec (.jal rd off) s = commitReg s rd .link (.jal (immJ off)) := rfl

theorem computes_jal (rd : Reg) (off : BitVec 21) :
    Computes (.jal rd off) rd (fun s => s.pc + 4#32) (fun s => s.pc + off.signExtend 32) :=
  computes_of_commitReg (exec_jal rd off)

theorem decode_of_opcode_jal {w : Word} (h : Inst.opcode w = 0b1101111#7) :
    decode w = .ok (.jal (Inst.rd w) (Inst.off21J w)) := by
  simp only [decode, h]

/-- Settles O18: JAL commits the link and the target, the target is checked by the fetch of the state so left, and the
match and mask fix the opcode. -/
theorem jalLinksAndJumps : Obligations.JalLinksAndJumps :=
  ⟨computes_jal,
    fun rd off _ _ hexec => step_of_regResult_of_not_admits (regResult_of_exec_next (computes_jal rd off) hexec),
    fun _ h => decode_of_opcode_jal (opcode_of_and_eq h (by decide))⟩

/-! ## What a commit of the PC alone leaves -/

theorem pcResult_setPc (s : State) (next : Word) : PcResult s (s.setPc next) next where
  regs r := readReg_setPc s next r
  memory a := by rw [setPc_mem]
  params := setPc_cfg s next
  pc := setPc_pc s next

/-- An instruction that in every state commits no register completes there, with what the PC mux selects (rules R126,
R130). -/
theorem onlyMoves_of_commitNone {i : Instr} {next : State → PcSelect} (h : ∀ s, exec i s = commitNone s (next s)) :
    OnlyMoves i (fun s => pcMux s.pc (next s)) :=
  fun s => ⟨_, (h s).trans (commitNone_eq s (next s)), pcResult_setPc s _⟩

/-! ## The branch comparator (rule R125) -/

theorem taken_eq_iff (a b : Word) : taken .eq a b = true ↔ a = b := beq_iff_eq

theorem taken_ne_iff (a b : Word) : taken .ne a b = true ↔ a ≠ b := bne_iff_ne

theorem taken_lt_iff (a b : Word) : taken .lt a b = true ↔ a.toInt < b.toInt := decide_eq_true_iff

theorem taken_ge_iff (a b : Word) : taken .ge a b = true ↔ b.toInt ≤ a.toInt := by
  simp [taken, ltSigned]

theorem taken_ltu_iff (a b : Word) : taken .ltu a b = true ↔ a.toNat < b.toNat := decide_eq_true_iff

theorem taken_geu_iff (a b : Word) : taken .geu a b = true ↔ b.toNat ≤ a.toNat := by
  simp [taken, ltUnsigned]

/-! ## A branch in every state -/

/-- The PC mux's answer to a branch whose comparator decides `p`. -/
theorem pcMux_branch {p : Prop} [Decidable p] {c : Bool} (h : c = true ↔ p) (pc : Word) (off : BitVec 13) :
    pcMux pc (if c then .br (immB off) else .seq) = if p then pc + off.signExtend 32 else pc + 4#32 := by
  by_cases hp : p
  · rw [if_pos (h.mpr hp), if_pos hp]
    rfl
  · rw [if_neg (mt h.mp hp), if_neg hp]
    rfl

/-- A branch completes in every state and goes to its target where its comparator's condition holds, else to the next
instruction. -/
theorem onlyMoves_of_branchIf {i : Instr} {c : BranchCond} {rs1 rs2 : Reg} {off : BitVec 13} {p : State → Prop}
    [DecidablePred p] (hexec : ∀ s, exec i s = branchIf c rs1 rs2 off s)
    (htaken : ∀ s, taken c (s.readReg rs1) (s.readReg rs2) = true ↔ p s) :
    OnlyMoves i (fun s => if p s then s.pc + off.signExtend 32 else s.pc + 4#32) := by
  simp only [← pcMux_branch (htaken _)]
  exact onlyMoves_of_commitNone hexec

theorem exec_beq (rs1 rs2 : Reg) (off : BitVec 13) (s : State) :
    exec (.beq rs1 rs2 off) s = branchIf .eq rs1 rs2 off s := rfl

theorem exec_bne (rs1 rs2 : Reg) (off : BitVec 13) (s : State) :
    exec (.bne rs1 rs2 off) s = branchIf .ne rs1 rs2 off s := rfl

theorem exec_blt (rs1 rs2 : Reg) (off : BitVec 13) (s : State) :
    exec (.blt rs1 rs2 off) s = branchIf .lt rs1 rs2 off s := rfl

theorem exec_bge (rs1 rs2 : Reg) (off : BitVec 13) (s : State) :
    exec (.bge rs1 rs2 off) s = branchIf .ge rs1 rs2 off s := rfl

theorem exec_bltu (rs1 rs2 : Reg) (off : BitVec 13) (s : State) :
    exec (.bltu rs1 rs2 off) s = branchIf .ltu rs1 rs2 off s := rfl

theorem exec_bgeu (rs1 rs2 : Reg) (off : BitVec 13) (s : State) :
    exec (.bgeu rs1 rs2 off) s = branchIf .geu rs1 rs2 off s := rfl

/-! ## The words of the branch opcode -/

/-- A row with mask 0x707F selects its instruction when the opcode and the funct3 of its pattern do. -/
theorem encodes_of_opcode_funct3 {v : Word} {f : Word → Instr} (hv : v &&& 0x0000707F#32 = v)
    (hdec : ∀ w, Inst.opcode w = Inst.opcode v → Inst.funct3 w = Inst.funct3 v → decode w = .ok (f w)) :
    Encodes v 0x0000707F#32 f := by
  intro w h
  obtain ⟨hop, h3⟩ := (and_funct3_iff w v).mp (h.trans hv.symm)
  exact hdec w hop h3

/-- A row of the branch opcode selects the form that `decodeBranch` gives its funct3. -/
theorem encodes_branch {v : Word} {f : Word → Instr} (hv : v &&& 0x0000707F#32 = v)
    (hopcode : Inst.opcode v = 0b1100011#7)
    (hdec : ∀ w, Inst.funct3 w = Inst.funct3 v → decodeBranch w = .ok (f w)) : Encodes v 0x0000707F#32 f := by
  refine encodes_of_opcode_funct3 hv fun w hop h3 => ?_
  have hbranch : decode w = decodeBranch w := by simp only [decode, hop.trans hopcode]
  rw [hbranch, hdec w h3]

theorem decodeBranch_of_funct3_beq {w : Word} (h : Inst.funct3 w = 0b000#3) :
    decodeBranch w = .ok (.beq (Inst.rs1 w) (Inst.rs2 w) (Inst.off13B w)) := by
  simp only [decodeBranch, h]

theorem decodeBranch_of_funct3_bne {w : Word} (h : Inst.funct3 w = 0b001#3) :
    decodeBranch w = .ok (.bne (Inst.rs1 w) (Inst.rs2 w) (Inst.off13B w)) := by
  simp only [decodeBranch, h]

theorem decodeBranch_of_funct3_blt {w : Word} (h : Inst.funct3 w = 0b100#3) :
    decodeBranch w = .ok (.blt (Inst.rs1 w) (Inst.rs2 w) (Inst.off13B w)) := by
  simp only [decodeBranch, h]

theorem decodeBranch_of_funct3_bge {w : Word} (h : Inst.funct3 w = 0b101#3) :
    decodeBranch w = .ok (.bge (Inst.rs1 w) (Inst.rs2 w) (Inst.off13B w)) := by
  simp only [decodeBranch, h]

theorem decodeBranch_of_funct3_bltu {w : Word} (h : Inst.funct3 w = 0b110#3) :
    decodeBranch w = .ok (.bltu (Inst.rs1 w) (Inst.rs2 w) (Inst.off13B w)) := by
  simp only [decodeBranch, h]

theorem decodeBranch_of_funct3_bgeu {w : Word} (h : Inst.funct3 w = 0b111#3) :
    decodeBranch w = .ok (.bgeu (Inst.rs1 w) (Inst.rs2 w) (Inst.off13B w)) := by
  simp only [decodeBranch, h]

/-! ## The three pairs of branches -/

/-- Settles O20: the comparator decides equality for BEQ and its negation for BNE. -/
theorem beqBneBranchOnEquality : Obligations.BeqBneBranchOnEquality :=
  ⟨fun rs1 rs2 off => onlyMoves_of_branchIf (exec_beq rs1 rs2 off) fun _ => taken_eq_iff _ _,
    fun rs1 rs2 off => onlyMoves_of_branchIf (exec_bne rs1 rs2 off) fun _ => taken_ne_iff _ _,
    encodes_branch (by decide) (by decide) fun _ => decodeBranch_of_funct3_beq,
    encodes_branch (by decide) (by decide) fun _ => decodeBranch_of_funct3_bne⟩

/-- Settles O21: the comparator decides the signed order for BLT and its negation, equality included, for BGE. -/
theorem bltBgeBranchOnSignedOrder : Obligations.BltBgeBranchOnSignedOrder :=
  ⟨fun rs1 rs2 off => onlyMoves_of_branchIf (exec_blt rs1 rs2 off) fun _ => taken_lt_iff _ _,
    fun rs1 rs2 off => onlyMoves_of_branchIf (exec_bge rs1 rs2 off) fun _ => taken_ge_iff _ _,
    encodes_branch (by decide) (by decide) fun _ => decodeBranch_of_funct3_blt,
    encodes_branch (by decide) (by decide) fun _ => decodeBranch_of_funct3_bge⟩

/-- Settles O22: the comparator decides the unsigned order for BLTU and its negation, equality included, for BGEU. -/
theorem bltuBgeuBranchOnUnsignedOrder : Obligations.BltuBgeuBranchOnUnsignedOrder :=
  ⟨fun rs1 rs2 off => onlyMoves_of_branchIf (exec_bltu rs1 rs2 off) fun _ => taken_ltu_iff _ _,
    fun rs1 rs2 off => onlyMoves_of_branchIf (exec_bgeu rs1 rs2 off) fun _ => taken_geu_iff _ _,
    encodes_branch (by decide) (by decide) fun _ => decodeBranch_of_funct3_bltu,
    encodes_branch (by decide) (by decide) fun _ => decodeBranch_of_funct3_bgeu⟩

end Sys2Proof.Machine
end

section
/-! PROOFS. The family of spec/43_load_store.md: the loads LB, LH (O23), LW (O24), LBU, LHU (O25) and the stores SB, SH
(O27), SW (O28). -/

namespace Sys2Proof.Machine

open Sys2Proof.Claims

/-! ## A load in every state -/

/-- An admitted load leaves the extended value in `rd` and the PC four further; a refused one reports its access (rules
R127, R128, R251). -/
theorem loads_of_loadWith {i : Instr} {w : Width} {e : LoadExt} {rd rs1 : Reg} {imm : BitVec 12} {value : State → Word}
    (hexec : ∀ s, exec i s = loadWith w e rd rs1 imm s)
    (hvalue : ∀ s, extendLoad w e (s.mem.readLE (address rs1 imm s).toNat w) = value s) :
    Loads i rd (address rs1 imm) w w.bytes value := by
  intro s
  rw [hexec s, loadWith_eq, ← hvalue s, admits_iff_admitted]
  constructor
  · intro hadm
    exact ⟨_, if_pos hadm, regResult_writeReg_setPc s rd _ _⟩
  · exact fun hbad => if_neg hbad

/-! ## The value a load commits (rules R52, R128) -/

/-- The bus's 32-bit answer loses no bit of a narrower access. -/
theorem setWidth_setWidth_word {n : Nat} (h : n ≤ 32) (x : BitVec n) : (x.setWidth 32).setWidth n = x := by
  rw [BitVec.setWidth_setWidth_of_le _ h, BitVec.setWidth_eq]

theorem extendLoad_w8_signed (b : Byte) : extendLoad .w8 .signed (b.setWidth 32) = b.signExtend 32 := by
  rw [extendLoad, setWidth_setWidth_word (by decide) b]

theorem extendLoad_w16_signed (x : BitVec 16) : extendLoad .w16 .signed (x.setWidth 32) = x.signExtend 32 := by
  rw [extendLoad, setWidth_setWidth_word (by decide) x]

theorem extendLoad_w8_unsigned (b : Byte) : extendLoad .w8 .unsigned (b.setWidth 32) = b.setWidth 32 := by
  rw [extendLoad, setWidth_setWidth_word (by decide) b]

theorem extendLoad_w16_unsigned (x : BitVec 16) : extendLoad .w16 .unsigned (x.setWidth 32) = x.setWidth 32 := by
  rw [extendLoad, setWidth_setWidth_word (by decide) x]

theorem extendLoad_w32 (e : LoadExt) (v : Word) : extendLoad .w32 e v = v := rfl

/-! ## The five loads -/

theorem exec_lb (rd rs1 : Reg) (imm : BitVec 12) (s : State) :
    exec (.lb rd rs1 imm) s = loadWith .w8 .signed rd rs1 imm s := rfl

theorem exec_lh (rd rs1 : Reg) (imm : BitVec 12) (s : State) :
    exec (.lh rd rs1 imm) s = loadWith .w16 .signed rd rs1 imm s := rfl

theorem exec_lw (rd rs1 : Reg) (imm : BitVec 12) (s : State) :
    exec (.lw rd rs1 imm) s = loadWith .w32 .signed rd rs1 imm s := rfl

theorem exec_lbu (rd rs1 : Reg) (imm : BitVec 12) (s : State) :
    exec (.lbu rd rs1 imm) s = loadWith .w8 .unsigned rd rs1 imm s := rfl

theorem exec_lhu (rd rs1 : Reg) (imm : BitVec 12) (s : State) :
    exec (.lhu rd rs1 imm) s = loadWith .w16 .unsigned rd rs1 imm s := rfl

/-- A row of the LOAD opcode selects the form that `decodeLoad` gives its funct3. -/
theorem encodes_load {v : Word} {f : Word → Instr} (hv : v &&& 0x0000707F#32 = v)
    (hopcode : Inst.opcode v = 0b0000011#7)
    (hdec : ∀ w, Inst.funct3 w = Inst.funct3 v → decodeLoad w = .ok (f w)) : Encodes v 0x0000707F#32 f := by
  refine encodes_of_opcode_funct3 hv fun w hop h3 => ?_
  have hload : decode w = decodeLoad w := by simp only [decode, hop.trans hopcode]
  rw [hload, hdec w h3]

theorem decodeLoad_of_funct3_lb {w : Word} (h : Inst.funct3 w = 0b000#3) :
    decodeLoad w = .ok (.lb (Inst.rd w) (Inst.rs1 w) (Inst.imm12I w)) := by
  simp only [decodeLoad, h]

theorem decodeLoad_of_funct3_lh {w : Word} (h : Inst.funct3 w = 0b001#3) :
    decodeLoad w = .ok (.lh (Inst.rd w) (Inst.rs1 w) (Inst.imm12I w)) := by
  simp only [decodeLoad, h]

theorem decodeLoad_of_funct3_lw {w : Word} (h : Inst.funct3 w = 0b010#3) :
    decodeLoad w = .ok (.lw (Inst.rd w) (Inst.rs1 w) (Inst.imm12I w)) := by
  simp only [decodeLoad, h]

theorem decodeLoad_of_funct3_lbu {w : Word} (h : Inst.funct3 w = 0b100#3) :
    decodeLoad w = .ok (.lbu (Inst.rd w) (Inst.rs1 w) (Inst.imm12I w)) := by
  simp only [decodeLoad, h]

theorem decodeLoad_of_funct3_lhu {w : Word} (h : Inst.funct3 w = 0b101#3) :
    decodeLoad w = .ok (.lhu (Inst.rd w) (Inst.rs1 w) (Inst.imm12I w)) := by
  simp only [decodeLoad, h]

/-- Settles O23: the bus's byte or half is sign-extended, and the match and mask fix opcode and funct3. -/
theorem lbLhLoadSignExtended : Obligations.LbLhLoadSignExtended :=
  ⟨fun rd rs1 imm => loads_of_loadWith (exec_lb rd rs1 imm) fun _ => extendLoad_w8_signed _,
    fun rd rs1 imm => loads_of_loadWith (exec_lh rd rs1 imm) fun s => extendLoad_w16_signed (half s _),
    encodes_load (by decide) (by decide) fun _ => decodeLoad_of_funct3_lb,
    encodes_load (by decide) (by decide) fun _ => decodeLoad_of_funct3_lh⟩

/-- Settles O24: the bus's word is committed as it is, and the match and mask fix opcode and funct3. -/
theorem lwLoadsTheWord : Obligations.LwLoadsTheWord :=
  ⟨fun rd rs1 imm => loads_of_loadWith (exec_lw rd rs1 imm) fun s => extendLoad_w32 .signed (word s _),
    encodes_load (by decide) (by decide) fun _ => decodeLoad_of_funct3_lw⟩

/-- Settles O25: the bus's byte or half is zero-extended, and the match and mask fix opcode and funct3. -/
theorem lbuLhuLoadZeroExtended : Obligations.LbuLhuLoadZeroExtended :=
  ⟨fun rd rs1 imm => loads_of_loadWith (exec_lbu rd rs1 imm) fun _ => extendLoad_w8_unsigned _,
    fun rd rs1 imm => loads_of_loadWith (exec_lhu rd rs1 imm) fun s => extendLoad_w16_unsigned (half s _),
    encodes_load (by decide) (by decide) fun _ => decodeLoad_of_funct3_lbu,
    encodes_load (by decide) (by decide) fun _ => decodeLoad_of_funct3_lhu⟩

/-! ## A store in every state -/

/-- A bus write followed by the advance of the PC changes those bytes and the PC alone (rule R53). -/
theorem storeResult_writeLE_setPc {s : State} (hwf : s.mem.wf) (a v : Word) (w : Width) :
    StoreResult s (({ s with mem := s.mem.writeLE a.toNat v w } : State).setPc (s.pc + 4#32)) a w.bytes v where
  bytes _ hk := read_writeLE_inside hwf a.toNat v w hk
  others _ hb := read_writeLE_outside s.mem a.toNat v w hb
  regs r := by rw [readReg_setPc, readReg_withMem]
  params := by rw [setPc_cfg]
  pc := setPc_pc _ _

/-- An admitted store leaves the low bytes of x[rs2] at its address and the PC four further; a refused one reports its
access (rules R127, R251). -/
theorem stores_of_storeWith {i : Instr} {w : Width} {rs2 rs1 : Reg} {imm : BitVec 12}
    (hexec : ∀ s, exec i s = storeWith w rs2 rs1 imm s) :
    Stores i (address rs1 imm) w w.bytes (fun s => s.readReg rs2) := by
  intro s hwf
  rw [hexec s, storeWith_eq, admits_iff_admitted]
  constructor
  · intro hadm
    exact ⟨_, if_pos hadm, storeResult_writeLE_setPc hwf _ _ w⟩
  · exact fun hbad => if_neg hbad

/-! ## The three stores -/

theorem exec_sb (rs2 rs1 : Reg) (imm : BitVec 12) (s : State) :
    exec (.sb rs2 rs1 imm) s = storeWith .w8 rs2 rs1 imm s := rfl

theorem exec_sh (rs2 rs1 : Reg) (imm : BitVec 12) (s : State) :
    exec (.sh rs2 rs1 imm) s = storeWith .w16 rs2 rs1 imm s := rfl

theorem exec_sw (rs2 rs1 : Reg) (imm : BitVec 12) (s : State) :
    exec (.sw rs2 rs1 imm) s = storeWith .w32 rs2 rs1 imm s := rfl

/-- A row of the STORE opcode selects the form that `decodeStore` gives its funct3. -/
theorem encodes_store {v : Word} {f : Word → Instr} (hv : v &&& 0x0000707F#32 = v)
    (hopcode : Inst.opcode v = 0b0100011#7)
    (hdec : ∀ w, Inst.funct3 w = Inst.funct3 v → decodeStore w = .ok (f w)) : Encodes v 0x0000707F#32 f := by
  refine encodes_of_opcode_funct3 hv fun w hop h3 => ?_
  have hstore : decode w = decodeStore w := by simp only [decode, hop.trans hopcode]
  rw [hstore, hdec w h3]

theorem decodeStore_of_funct3_sb {w : Word} (h : Inst.funct3 w = 0b000#3) :
    decodeStore w = .ok (.sb (Inst.rs2 w) (Inst.rs1 w) (Inst.imm12S w)) := by
  simp only [decodeStore, h]

theorem decodeStore_of_funct3_sh {w : Word} (h : Inst.funct3 w = 0b001#3) :
    decodeStore w = .ok (.sh (Inst.rs2 w) (Inst.rs1 w) (Inst.imm12S w)) := by
  simp only [decodeStore, h]

theorem decodeStore_of_funct3_sw {w : Word} (h : Inst.funct3 w = 0b010#3) :
    decodeStore w = .ok (.sw (Inst.rs2 w) (Inst.rs1 w) (Inst.imm12S w)) := by
  simp only [decodeStore, h]

/-- Settles O27: a store of one or two bytes in every state with a canonical memory, and the match and mask fix opcode and
funct3. -/
theorem sbShStoreTheLowBytes : Obligations.SbShStoreTheLowBytes :=
  ⟨fun rs2 rs1 imm => stores_of_storeWith (exec_sb rs2 rs1 imm),
    fun rs2 rs1 imm => stores_of_storeWith (exec_sh rs2 rs1 imm),
    encodes_store (by decide) (by decide) fun _ => decodeStore_of_funct3_sb,
    encodes_store (by decide) (by decide) fun _ => decodeStore_of_funct3_sh⟩

/-- Settles O28: a store of four bytes in every state with a canonical memory, and the match and mask fix opcode and
funct3. -/
theorem swStoresTheWord : Obligations.SwStoresTheWord :=
  ⟨fun rs2 rs1 imm => stores_of_storeWith (exec_sw rs2 rs1 imm),
    encodes_store (by decide) (by decide) fun _ => decodeStore_of_funct3_sw⟩

end Sys2Proof.Machine
end

section
/-! PROOFS. The family of spec/44_alu.md: ADDI, SLTI (O29), SLLI (O31), ADD, SUB (O33) and SRL, SRA (O34). -/

namespace Sys2Proof.Machine

open Sys2Proof.Claims

/-! ## An ALU instruction in every state (rules R126, R129, R130) -/

/-- An instruction that commits the ALU's answer on x[rs1] and `b` (a register for `aluRegReg`, an immediate for
`aluRegImm`) completes in every state, with that answer in `rd` and the PC four further. -/
theorem computes_of_alu {i : Instr} {op : AluOp} {rd rs1 : Reg} {b value : State → Word}
    (hexec : ∀ s, exec i s = commitReg s rd (.alu (alu op (s.readReg rs1) (b s))) .seq)
    (hvalue : ∀ s, alu op (s.readReg rs1) (b s) = value s) : Computes i rd value (fun s => s.pc + 4#32) := by
  obtain rfl : _ = value := funext hvalue
  exact computes_of_commitReg hexec

/-! ## The ALU in integer arithmetic (rules R124, R220) -/

theorem alu_add_eq_ofNat (a b : Word) : alu .add a b = BitVec.ofNat 32 (a.toNat + b.toNat) :=
  BitVec.add_def a b

theorem alu_add_eq_ofInt (a b : Word) : alu .add a b = BitVec.ofInt 32 (a.toInt + b.toInt) := by
  rw [BitVec.ofInt_add, BitVec.ofInt_toInt, BitVec.ofInt_toInt, alu]

theorem alu_sub_eq_ofInt (a b : Word) : alu .sub a b = BitVec.ofInt 32 (a.toInt - b.toInt) :=
  BitVec.eq_of_toInt_eq (by rw [alu, BitVec.toInt_sub, BitVec.toInt_ofInt])

theorem alu_slt_eq_bit (a b : Word) : alu .slt a b = bit (a.toInt < b.toInt) := by
  by_cases h : a.toInt < b.toInt <;> simp [alu, boolWord, ltSigned, bit, h]

theorem alu_sll_eq_ofNat (a b : Word) : alu .sll a b = BitVec.ofNat 32 (a.toNat * 2 ^ shiftAmount b) := by
  rw [← Nat.shiftLeft_eq]
  rfl

theorem alu_srl_eq_ofNat (a b : Word) : alu .srl a b = BitVec.ofNat 32 (a.toNat / 2 ^ shiftAmount b) := by
  rw [← Nat.shiftRight_eq_div_pow, ← BitVec.toNat_ushiftRight, BitVec.ofNat_toNat, BitVec.setWidth_eq, alu]

theorem alu_sra_eq_ofInt (a b : Word) : alu .sra a b = BitVec.ofInt 32 (a.toInt / 2 ^ shiftAmount b) := by
  rw [alu, BitVec.sshiftRight, Int.shiftRight_eq_div_pow, Nat.cast_pow, Nat.cast_ofNat]

/-! ## The second operand -/

/-- Sign extension keeps the I-immediate's value (rule R84). -/
theorem toInt_immI (imm : BitVec 12) : (immI imm).toInt = imm.toInt :=
  BitVec.toInt_signExtend_of_le (by decide)

/-- Of a register only the low 5 bits count as a shift amount (rule R124). -/
theorem shiftAmount_eq_mod (b : Word) : shiftAmount b = b.toNat % 32 :=
  BitVec.extractLsb'_toNat 0 5 b

/-- A 5-bit shift amount in a word is that amount (rule R89). -/
theorem shiftAmount_setWidth (shamt : BitVec 5) : shiftAmount (shamt.setWidth 32) = shamt.toNat := by
  rw [shiftAmount_eq_mod, BitVec.toNat_setWidth_of_le (by decide), Nat.mod_eq_of_lt shamt.isLt]

/-! ## The instructions' executions -/

theorem exec_addi (rd rs1 : Reg) (imm : BitVec 12) (s : State) :
    exec (.addi rd rs1 imm) s = aluRegImm .add rd rs1 (immI imm) s := rfl

theorem exec_slti (rd rs1 : Reg) (imm : BitVec 12) (s : State) :
    exec (.slti rd rs1 imm) s = aluRegImm .slt rd rs1 (immI imm) s := rfl

theorem exec_slli (rd rs1 : Reg) (shamt : BitVec 5) (s : State) :
    exec (.slli rd rs1 shamt) s = aluRegImm .sll rd rs1 (shamt.setWidth 32) s := rfl

theorem exec_add (rd rs1 rs2 : Reg) (s : State) : exec (.add rd rs1 rs2) s = aluRegReg .add rd rs1 rs2 s := rfl

theorem exec_sub (rd rs1 rs2 : Reg) (s : State) : exec (.sub rd rs1 rs2) s = aluRegReg .sub rd rs1 rs2 s := rfl

theorem exec_srl (rd rs1 rs2 : Reg) (s : State) : exec (.srl rd rs1 rs2) s = aluRegReg .srl rd rs1 rs2 s := rfl

theorem exec_sra (rd rs1 rs2 : Reg) (s : State) : exec (.sra rd rs1 rs2) s = aluRegReg .sra rd rs1 rs2 s := rfl

/-! ## The words of the opcodes OP-IMM and OP -/

theorem decode_of_opcode_opImm {w : Word} (h : Inst.opcode w = 0b0010011#7) : decode w = decodeOpImm w := by
  simp only [decode, h]

theorem decode_of_opcode_op {w : Word} (h : Inst.opcode w = 0b0110011#7) : decode w = decodeOp w := by
  simp only [decode, h]

/-- A row of the OP-IMM opcode with mask 0x707F selects the form that `decodeOpImm` gives its funct3. -/
theorem encodes_opImm {v : Word} {f : Word → Instr} (hv : v &&& 0x0000707F#32 = v)
    (hopcode : Inst.opcode v = 0b0010011#7)
    (hdec : ∀ w, Inst.funct3 w = Inst.funct3 v → decodeOpImm w = .ok (f w)) : Encodes v 0x0000707F#32 f :=
  encodes_of_opcode_funct3 hv fun w hop h3 => (decode_of_opcode_opImm (hop.trans hopcode)).trans (hdec w h3)

/-- A row with mask 0xFE00707F selects its instruction when the opcode, the funct3 and the funct7 of its pattern do. -/
theorem encodes_of_opcode_funct3_funct7 {v : Word} {f : Word → Instr} (hv : v &&& 0xFE00707F#32 = v)
    (hdec : ∀ w, Inst.opcode w = Inst.opcode v → Inst.funct3 w = Inst.funct3 v → Inst.funct7 w = Inst.funct7 v →
      decode w = .ok (f w)) : Encodes v 0xFE00707F#32 f := by
  intro w h
  obtain ⟨hop, h3, h7⟩ := (and_funct7_iff w v).mp (h.trans hv.symm)
  exact hdec w hop h3 h7

/-- A row of the OP opcode with mask 0xFE00707F selects the form that `decodeOp` gives its funct3 and funct7. -/
theorem encodes_op_funct7 {v : Word} {f : Word → Instr} (hv : v &&& 0xFE00707F#32 = v)
    (hopcode : Inst.opcode v = 0b0110011#7)
    (hdec : ∀ w, Inst.funct3 w = Inst.funct3 v → Inst.funct7 w = Inst.funct7 v → decodeOp w = .ok (f w)) :
    Encodes v 0xFE00707F#32 f :=
  encodes_of_opcode_funct3_funct7 hv fun w hop h3 h7 =>
    (decode_of_opcode_op (hop.trans hopcode)).trans (hdec w h3 h7)

theorem decodeOpImm_of_funct3_addi {w : Word} (h : Inst.funct3 w = 0b000#3) :
    decodeOpImm w = .ok (.addi (Inst.rd w) (Inst.rs1 w) (Inst.imm12I w)) := by
  simp only [decodeOpImm, h]

theorem decodeOpImm_of_funct3_slti {w : Word} (h : Inst.funct3 w = 0b010#3) :
    decodeOpImm w = .ok (.slti (Inst.rd w) (Inst.rs1 w) (Inst.imm12I w)) := by
  simp only [decodeOpImm, h]

theorem decodeOpImm_of_funct3_slli {w : Word} (h : Inst.funct3 w = 0b001#3) :
    decodeOpImm w = .ok (.slli (Inst.rd w) (Inst.rs1 w) (Inst.shamt w)) := by
  simp only [decodeOpImm, h]

theorem decodeOp_of_funct7_add {w : Word} (h3 : Inst.funct3 w = 0b000#3) (h7 : Inst.funct7 w = 0b0000000#7) :
    decodeOp w = .ok (.add (Inst.rd w) (Inst.rs1 w) (Inst.rs2 w)) := by
  simp only [decodeOp, h3, h7]

theorem decodeOp_of_funct7_sub {w : Word} (h3 : Inst.funct3 w = 0b000#3) (h7 : Inst.funct7 w = 0b0100000#7) :
    decodeOp w = .ok (.sub (Inst.rd w) (Inst.rs1 w) (Inst.rs2 w)) := by
  simp only [decodeOp, h3, h7]

theorem decodeOp_of_funct7_srl {w : Word} (h3 : Inst.funct3 w = 0b101#3) (h7 : Inst.funct7 w = 0b0000000#7) :
    decodeOp w = .ok (.srl (Inst.rd w) (Inst.rs1 w) (Inst.rs2 w)) := by
  simp [decodeOp, h3, h7]

theorem decodeOp_of_funct7_sra {w : Word} (h3 : Inst.funct3 w = 0b101#3) (h7 : Inst.funct7 w = 0b0100000#7) :
    decodeOp w = .ok (.sra (Inst.rd w) (Inst.rs1 w) (Inst.rs2 w)) := by
  simp [decodeOp, h3, h7]

/-! ## The four statements -/

/-- Settles O29: the ALU's sum and signed comparison with the sign-extended immediate, whose value as an integer is the
12-bit immediate's; the match and mask fix opcode and funct3. -/
theorem addiSltiComputeOnTheSignedImmediate : Obligations.AddiSltiComputeOnTheSignedImmediate :=
  ⟨fun rd rs1 imm => computes_of_alu (exec_addi rd rs1 imm) fun _ => by rw [alu_add_eq_ofInt, toInt_immI],
    fun rd rs1 imm => computes_of_alu (exec_slti rd rs1 imm) fun _ => by simp only [alu_slt_eq_bit, toInt_immI],
    encodes_opImm (by decide) (by decide) fun _ => decodeOpImm_of_funct3_addi,
    encodes_opImm (by decide) (by decide) fun _ => decodeOpImm_of_funct3_slti⟩

/-- Settles O31: the ALU's left shift by the 5-bit amount; the match and mask fix opcode and funct3 and leave the word's
bits 31:25 out. -/
theorem slliShiftsByTheLowFiveBits : Obligations.SlliShiftsByTheLowFiveBits :=
  ⟨fun rd rs1 shamt => computes_of_alu (exec_slli rd rs1 shamt) fun _ => by
      rw [alu_sll_eq_ofNat, shiftAmount_setWidth],
    encodes_opImm (by decide) (by decide) fun _ => decodeOpImm_of_funct3_slli⟩

/-- Settles O33: the ALU's sum and difference modulo 2^32, and the match and mask fix opcode, funct3 and funct7. -/
theorem addSubWrapSilently : Obligations.AddSubWrapSilently :=
  ⟨fun rd rs1 rs2 => computes_of_alu (exec_add rd rs1 rs2) fun _ => alu_add_eq_ofNat _ _,
    fun rd rs1 rs2 => computes_of_alu (exec_sub rd rs1 rs2) fun _ => alu_sub_eq_ofInt _ _,
    encodes_op_funct7 (by decide) (by decide) fun _ => decodeOp_of_funct7_add,
    encodes_op_funct7 (by decide) (by decide) fun _ => decodeOp_of_funct7_sub⟩

/-- Settles O34: the ALU's right shifts as floor divisions by a power of two, whose exponent is x[rs2] modulo 32; the
match and mask fix opcode, funct3 and funct7. -/
theorem srlSraShiftByTheLowFiveBits : Obligations.SrlSraShiftByTheLowFiveBits :=
  ⟨fun rd rs1 rs2 => computes_of_alu (exec_srl rd rs1 rs2) fun _ => by
      rw [alu_srl_eq_ofNat, shiftAmount_eq_mod],
    fun rd rs1 rs2 => computes_of_alu (exec_sra rd rs1 rs2) fun _ => by
      rw [alu_sra_eq_ofInt, shiftAmount_eq_mod],
    encodes_op_funct7 (by decide) (by decide) fun _ => decodeOp_of_funct7_srl,
    encodes_op_funct7 (by decide) (by decide) fun _ => decodeOp_of_funct7_sra⟩

end Sys2Proof.Machine
end

section
/-! PROOFS. The family of spec/60_exceptions.md: what `exec` does with its data access (O14). -/

namespace Sys2Proof.Machine

open Sys2Proof.Claims

/-! ## A refused data access -/

theorem loadWith_of_not_admits {w : Width} (e : LoadExt) (rd : Reg) {rs1 : Reg} {imm : BitVec 12} {s : State}
    (h : ¬ Admits s.cfg (address rs1 imm s) (byteCount w)) :
    loadWith w e rd rs1 imm s = .fault (.memoryFault .load (address rs1 imm s) w) := by
  rw [byteCount_eq_bytes, admits_iff_admitted] at h
  rw [loadWith_eq]
  exact if_neg h

theorem storeWith_of_not_admits {w : Width} (rs2 : Reg) {rs1 : Reg} {imm : BitVec 12} {s : State}
    (h : ¬ Admits s.cfg (address rs1 imm s) (byteCount w)) :
    storeWith w rs2 rs1 imm s = .fault (.memoryFault .store (address rs1 imm s) w) := by
  rw [byteCount_eq_bytes, admits_iff_admitted] at h
  rw [storeWith_eq]
  exact if_neg h

/-- The converse of `exec_fault`: a load or store the bus refuses reports its own access (rule R251). -/
theorem exec_of_not_admits {i : Instr} {s : State} {k : AccessKind} {a : Word} {w : Width}
    (hacc : dataAccess s i = some (k, a, w)) (hbad : ¬ Admits s.cfg a (byteCount w)) :
    exec i s = .fault (.memoryFault k a w) := by
  cases i
  case lb | lbu | lh | lhu | lw | lwu => cases hacc; exact loadWith_of_not_admits _ _ hbad
  case sb | sh | sw => cases hacc; exact storeWith_of_not_admits _ hbad
  all_goals cases hacc

/-! ## No data access -/

/-- An instruction without a data access completes: it can neither fault nor be refused (rule R255). -/
theorem exec_completes_of_no_access {i : Instr} {s : State} (hnone : dataAccess s i = none) :
    ∃ t, exec i s = .next t := by
  cases h : exec i s with
  | next t => exact ⟨t, rfl⟩
  | fault f =>
    obtain ⟨k, a, w, hacc, -, -⟩ := exec_fault h
    rw [hnone] at hacc
    cases hacc
  | refused r => exact absurd h (exec_ne_refused i s r)

/-- Settles O14: `exec_fault` and its converse are the equivalence; without an access nothing is left but to complete. -/
theorem onlyARefusedDataAccessFaults : Obligations.OnlyARefusedDataAccessFaults := by
  refine fun i s => ⟨fun f => ⟨exec_fault, ?_⟩, exec_completes_of_no_access⟩
  rintro ⟨k, a, w, hacc, hbad, rfl⟩
  exact exec_of_not_admits hacc hbad

end Sys2Proof.Machine
end

section
/-! PROOFS. The family of spec/70_reset_and_hazards.md: the first step after reset (O52). -/

namespace Sys2Proof.Machine

/-- Settles O52: the two cases of any step's fetch, at the constructed state, whose PC is MEM_BASE (`construct_pc`) and
whose parameters are the given ones (`construct_cfg`). -/
theorem firstStepFetchesAtMemBase : Obligations.FirstStepFetchesAtMemBase :=
  fun c m => ⟨step_of_admits (s := State.construct c m), step_of_not_admits (s := State.construct c m)⟩

end Sys2Proof.Machine
end

section
/-! PROOFS. The instructions whose rules rest on a decision of the spec: JALR (O19), LWU (O26), the immediates of O30,
the right shifts of O32, the register forms of O35, and the stubs FENCE (O36), CSR (O37), ECALL and EBREAK (O38). -/

namespace Sys2Proof.Machine

open Sys2Proof.Claims

/-! ## JALR -/

theorem exec_jalr (rd rs1 : Reg) (imm : BitVec 12) (s : State) :
    exec (.jalr rd rs1 imm) s = commitReg s rd .link (.jalr (s.readReg rs1) (immI imm)) := rfl

theorem computes_jalr (rd rs1 : Reg) (imm : BitVec 12) :
    Computes (.jalr rd rs1 imm) rd (fun s => s.pc + 4#32)
      (fun s => (s.readReg rs1 + imm.signExtend 32) &&& 0xFFFFFFFE#32) :=
  computes_of_commitReg (exec_jalr rd rs1 imm)

theorem decode_of_opcode_jalr {w : Word} (h : Inst.opcode w = 0b1100111#7) :
    decode w = .ok (.jalr (Inst.rd w) (Inst.rs1 w) (Inst.imm12I w)) := by
  simp only [decode, h]

/-- Settles O19: JALR commits the link and the target computed before the write, the target is checked by the fetch of
the state so left, and the match and mask fix the opcode. -/
theorem jalrLinksAndJumpsFromTheOldRegister : Obligations.JalrLinksAndJumpsFromTheOldRegister := by
  refine ⟨computes_jalr, fun rd rs1 imm s t hexec hbad => step_of_not_admits ?_,
    fun _ h => decode_of_opcode_jalr (opcode_of_and_eq h (by decide))⟩
  rwa [(regResult_of_exec_next (computes_jalr rd rs1 imm) hexec).params]

/-! ## LWU -/

theorem exec_lwu (rd rs1 : Reg) (imm : BitVec 12) (s : State) :
    exec (.lwu rd rs1 imm) s = loadWith .w32 .unsigned rd rs1 imm s := rfl

theorem decodeLoad_of_funct3_lwu {w : Word} (h : Inst.funct3 w = 0b110#3) :
    decodeLoad w = .ok (.lwu (Inst.rd w) (Inst.rs1 w) (Inst.imm12I w)) := by
  simp only [decodeLoad, h]

/-- Settles O26: the bus's word is committed as it is, as for LW, and the match and mask fix opcode and funct3. -/
theorem lwuLoadsTheWord : Obligations.LwuLoadsTheWord :=
  ⟨fun rd rs1 imm => loads_of_loadWith (exec_lwu rd rs1 imm) fun s => extendLoad_w32 .unsigned (word s _),
    encodes_load (by decide) (by decide) fun _ => decodeLoad_of_funct3_lwu⟩

/-! ## SLTIU, XORI, ORI, ANDI, SRLI and SRAI -/

theorem alu_sltu_eq_bit (a b : Word) : alu .sltu a b = bit (a.toNat < b.toNat) := by
  by_cases h : a.toNat < b.toNat <;> simp [alu, boolWord, ltUnsigned, bit, h]

/-- The sign-extended immediate is the 32-bit word of the immediate's integer value (rule R84, D9). -/
theorem immI_eq_ofInt (imm : BitVec 12) : immI imm = BitVec.ofInt 32 imm.toInt := by
  rw [← toInt_immI, BitVec.ofInt_toInt]

theorem exec_sltiu (rd rs1 : Reg) (imm : BitVec 12) (s : State) :
    exec (.sltiu rd rs1 imm) s = aluRegImm .sltu rd rs1 (immI imm) s := rfl

theorem exec_xori (rd rs1 : Reg) (imm : BitVec 12) (s : State) :
    exec (.xori rd rs1 imm) s = aluRegImm .xor rd rs1 (immI imm) s := rfl

theorem exec_ori (rd rs1 : Reg) (imm : BitVec 12) (s : State) :
    exec (.ori rd rs1 imm) s = aluRegImm .or rd rs1 (immI imm) s := rfl

theorem exec_andi (rd rs1 : Reg) (imm : BitVec 12) (s : State) :
    exec (.andi rd rs1 imm) s = aluRegImm .and rd rs1 (immI imm) s := rfl

theorem exec_srli (rd rs1 : Reg) (shamt : BitVec 5) (s : State) :
    exec (.srli rd rs1 shamt) s = aluRegImm .srl rd rs1 (shamt.setWidth 32) s := rfl

theorem exec_srai (rd rs1 : Reg) (shamt : BitVec 5) (s : State) :
    exec (.srai rd rs1 shamt) s = aluRegImm .sra rd rs1 (shamt.setWidth 32) s := rfl

theorem decodeOpImm_of_funct3_sltiu {w : Word} (h : Inst.funct3 w = 0b011#3) :
    decodeOpImm w = .ok (.sltiu (Inst.rd w) (Inst.rs1 w) (Inst.imm12I w)) := by
  simp only [decodeOpImm, h]

theorem decodeOpImm_of_funct3_xori {w : Word} (h : Inst.funct3 w = 0b100#3) :
    decodeOpImm w = .ok (.xori (Inst.rd w) (Inst.rs1 w) (Inst.imm12I w)) := by
  simp only [decodeOpImm, h]

theorem decodeOpImm_of_funct3_ori {w : Word} (h : Inst.funct3 w = 0b110#3) :
    decodeOpImm w = .ok (.ori (Inst.rd w) (Inst.rs1 w) (Inst.imm12I w)) := by
  simp only [decodeOpImm, h]

theorem decodeOpImm_of_funct3_andi {w : Word} (h : Inst.funct3 w = 0b111#3) :
    decodeOpImm w = .ok (.andi (Inst.rd w) (Inst.rs1 w) (Inst.imm12I w)) := by
  simp only [decodeOpImm, h]

theorem decodeOpImm_of_funct7_srli {w : Word} (h3 : Inst.funct3 w = 0b101#3) (h7 : Inst.funct7 w = 0b0000000#7) :
    decodeOpImm w = .ok (.srli (Inst.rd w) (Inst.rs1 w) (Inst.shamt w)) := by
  simp [decodeOpImm, h3, h7]

theorem decodeOpImm_of_funct7_srai {w : Word} (h3 : Inst.funct3 w = 0b101#3) (h7 : Inst.funct7 w = 0b0100000#7) :
    decodeOpImm w = .ok (.srai (Inst.rd w) (Inst.rs1 w) (Inst.shamt w)) := by
  simp [decodeOpImm, h3, h7]

/-- A row of the OP-IMM opcode with mask 0xFE00707F selects the form that `decodeOpImm` gives its funct3 and funct7. -/
theorem encodes_opImm_funct7 {v : Word} {f : Word → Instr} (hv : v &&& 0xFE00707F#32 = v)
    (hopcode : Inst.opcode v = 0b0010011#7)
    (hdec : ∀ w, Inst.funct3 w = Inst.funct3 v → Inst.funct7 w = Inst.funct7 v → decodeOpImm w = .ok (f w)) :
    Encodes v 0xFE00707F#32 f :=
  encodes_of_opcode_funct3_funct7 hv fun w hop h3 h7 =>
    (decode_of_opcode_opImm (hop.trans hopcode)).trans (hdec w h3 h7)

/-- Settles O30: the ALU's unsigned comparison and bitwise operations with the immediate's integer value as a word; the
match and mask fix opcode and funct3. -/
theorem sltiuAndLogicalImmediatesAreSignExtended : Obligations.SltiuAndLogicalImmediatesAreSignExtended :=
  ⟨fun rd rs1 imm => computes_of_alu (exec_sltiu rd rs1 imm) fun _ => by simp only [alu_sltu_eq_bit, immI_eq_ofInt],
    fun rd rs1 imm => computes_of_alu (exec_xori rd rs1 imm) fun _ => by rw [alu, immI_eq_ofInt],
    fun rd rs1 imm => computes_of_alu (exec_ori rd rs1 imm) fun _ => by rw [alu, immI_eq_ofInt],
    fun rd rs1 imm => computes_of_alu (exec_andi rd rs1 imm) fun _ => by rw [alu, immI_eq_ofInt],
    encodes_opImm (by decide) (by decide) fun _ => decodeOpImm_of_funct3_sltiu,
    encodes_opImm (by decide) (by decide) fun _ => decodeOpImm_of_funct3_xori,
    encodes_opImm (by decide) (by decide) fun _ => decodeOpImm_of_funct3_ori,
    encodes_opImm (by decide) (by decide) fun _ => decodeOpImm_of_funct3_andi⟩

/-- Settles O32: the ALU's right shifts by the 5-bit amount as floor divisions; the match and mask fix opcode, funct3
and funct7. -/
theorem srliSraiShiftRight : Obligations.SrliSraiShiftRight :=
  ⟨fun rd rs1 shamt => computes_of_alu (exec_srli rd rs1 shamt) fun _ => by
      rw [alu_srl_eq_ofNat, shiftAmount_setWidth],
    fun rd rs1 shamt => computes_of_alu (exec_srai rd rs1 shamt) fun _ => by
      rw [alu_sra_eq_ofInt, shiftAmount_setWidth],
    encodes_opImm_funct7 (by decide) (by decide) fun _ => decodeOpImm_of_funct7_srli,
    encodes_opImm_funct7 (by decide) (by decide) fun _ => decodeOpImm_of_funct7_srai⟩

/-! ## SLL, SLT, SLTU, XOR, OR and AND -/

theorem exec_sll (rd rs1 rs2 : Reg) (s : State) : exec (.sll rd rs1 rs2) s = aluRegReg .sll rd rs1 rs2 s := rfl

theorem exec_slt (rd rs1 rs2 : Reg) (s : State) : exec (.slt rd rs1 rs2) s = aluRegReg .slt rd rs1 rs2 s := rfl

theorem exec_sltu (rd rs1 rs2 : Reg) (s : State) : exec (.sltu rd rs1 rs2) s = aluRegReg .sltu rd rs1 rs2 s := rfl

theorem exec_xor (rd rs1 rs2 : Reg) (s : State) : exec (.xor rd rs1 rs2) s = aluRegReg .xor rd rs1 rs2 s := rfl

theorem exec_or (rd rs1 rs2 : Reg) (s : State) : exec (.or rd rs1 rs2) s = aluRegReg .or rd rs1 rs2 s := rfl

theorem exec_and (rd rs1 rs2 : Reg) (s : State) : exec (.and rd rs1 rs2) s = aluRegReg .and rd rs1 rs2 s := rfl

/-- A row of the OP opcode with mask 0x707F selects the form that `decodeOp` gives its funct3. -/
theorem encodes_op {v : Word} {f : Word → Instr} (hv : v &&& 0x0000707F#32 = v)
    (hopcode : Inst.opcode v = 0b0110011#7)
    (hdec : ∀ w, Inst.funct3 w = Inst.funct3 v → decodeOp w = .ok (f w)) : Encodes v 0x0000707F#32 f :=
  encodes_of_opcode_funct3 hv fun w hop h3 => (decode_of_opcode_op (hop.trans hopcode)).trans (hdec w h3)

theorem decodeOp_of_funct3_sll {w : Word} (h : Inst.funct3 w = 0b001#3) :
    decodeOp w = .ok (.sll (Inst.rd w) (Inst.rs1 w) (Inst.rs2 w)) := by
  simp only [decodeOp, h]

theorem decodeOp_of_funct3_slt {w : Word} (h : Inst.funct3 w = 0b010#3) :
    decodeOp w = .ok (.slt (Inst.rd w) (Inst.rs1 w) (Inst.rs2 w)) := by
  simp only [decodeOp, h]

theorem decodeOp_of_funct3_sltu {w : Word} (h : Inst.funct3 w = 0b011#3) :
    decodeOp w = .ok (.sltu (Inst.rd w) (Inst.rs1 w) (Inst.rs2 w)) := by
  simp only [decodeOp, h]

theorem decodeOp_of_funct3_xor {w : Word} (h : Inst.funct3 w = 0b100#3) :
    decodeOp w = .ok (.xor (Inst.rd w) (Inst.rs1 w) (Inst.rs2 w)) := by
  simp only [decodeOp, h]

theorem decodeOp_of_funct3_or {w : Word} (h : Inst.funct3 w = 0b110#3) :
    decodeOp w = .ok (.or (Inst.rd w) (Inst.rs1 w) (Inst.rs2 w)) := by
  simp only [decodeOp, h]

theorem decodeOp_of_funct3_and {w : Word} (h : Inst.funct3 w = 0b111#3) :
    decodeOp w = .ok (.and (Inst.rd w) (Inst.rs1 w) (Inst.rs2 w)) := by
  simp only [decodeOp, h]

/-- Settles O35: the ALU's left shift by x[rs2] modulo 32, its two comparisons and its bitwise operations; the match and
mask fix opcode and funct3 and leave funct7 out. -/
theorem sllSltSltuXorOrAndCompute : Obligations.SllSltSltuXorOrAndCompute :=
  ⟨fun rd rs1 rs2 => computes_of_alu (exec_sll rd rs1 rs2) fun _ => by rw [alu_sll_eq_ofNat, shiftAmount_eq_mod],
    fun rd rs1 rs2 => computes_of_alu (exec_slt rd rs1 rs2) fun _ => alu_slt_eq_bit _ _,
    fun rd rs1 rs2 => computes_of_alu (exec_sltu rd rs1 rs2) fun _ => alu_sltu_eq_bit _ _,
    fun rd rs1 rs2 => computes_of_alu (exec_xor rd rs1 rs2) fun _ => rfl,
    fun rd rs1 rs2 => computes_of_alu (exec_or rd rs1 rs2) fun _ => rfl,
    fun rd rs1 rs2 => computes_of_alu (exec_and rd rs1 rs2) fun _ => rfl,
    encodes_op (by decide) (by decide) fun _ => decodeOp_of_funct3_sll,
    encodes_op (by decide) (by decide) fun _ => decodeOp_of_funct3_slt,
    encodes_op (by decide) (by decide) fun _ => decodeOp_of_funct3_sltu,
    encodes_op (by decide) (by decide) fun _ => decodeOp_of_funct3_xor,
    encodes_op (by decide) (by decide) fun _ => decodeOp_of_funct3_or,
    encodes_op (by decide) (by decide) fun _ => decodeOp_of_funct3_and⟩

/-! ## The stubs -/

/-- A stub completes in every state and advances the PC alone (45_system.md). -/
theorem onlyMoves_of_stub {i : Instr} (h : ∀ s, exec i s = stub s) : OnlyMoves i (fun s => s.pc + 4#32) :=
  onlyMoves_of_commitNone h

theorem decode_of_opcode_fence {w : Word} (h : Inst.opcode w = 0b0001111#7) :
    decode w = .ok (.fence (Inst.fm w) (Inst.pred w) (Inst.succ w) (Inst.rs1 w) (Inst.rd w)) := by
  simp only [decode, h]

theorem decode_of_opcode_system {w : Word} (h : Inst.opcode w = 0b1110011#7) : decode w = decodeSystem w := by
  simp only [decode, h]

/-- A row of the SYSTEM opcode with mask 0x707F selects the form that `decodeSystem` gives its funct3. -/
theorem encodes_system {v : Word} {f : Word → Instr} (hv : v &&& 0x0000707F#32 = v)
    (hopcode : Inst.opcode v = 0b1110011#7)
    (hdec : ∀ w, Inst.funct3 w = Inst.funct3 v → decodeSystem w = .ok (f w)) : Encodes v 0x0000707F#32 f :=
  encodes_of_opcode_funct3 hv fun w hop h3 => (decode_of_opcode_system (hop.trans hopcode)).trans (hdec w h3)

theorem decodeSystem_of_funct3_csrrw {w : Word} (h : Inst.funct3 w = 0b001#3) :
    decodeSystem w = .ok (.csrrw (Inst.rd w) (Inst.csr w) (Inst.rs1 w)) := by
  simp only [decodeSystem, h]

theorem decodeSystem_of_funct3_csrrs {w : Word} (h : Inst.funct3 w = 0b010#3) :
    decodeSystem w = .ok (.csrrs (Inst.rd w) (Inst.csr w) (Inst.rs1 w)) := by
  simp only [decodeSystem, h]

theorem decodeSystem_of_funct3_csrrc {w : Word} (h : Inst.funct3 w = 0b011#3) :
    decodeSystem w = .ok (.csrrc (Inst.rd w) (Inst.csr w) (Inst.rs1 w)) := by
  simp only [decodeSystem, h]

theorem decodeSystem_of_funct3_csrrwi {w : Word} (h : Inst.funct3 w = 0b101#3) :
    decodeSystem w = .ok (.csrrwi (Inst.rd w) (Inst.csr w) (Inst.uimm w)) := by
  simp only [decodeSystem, h]

theorem decodeSystem_of_funct3_csrrsi {w : Word} (h : Inst.funct3 w = 0b110#3) :
    decodeSystem w = .ok (.csrrsi (Inst.rd w) (Inst.csr w) (Inst.uimm w)) := by
  simp only [decodeSystem, h]

theorem decodeSystem_of_funct3_csrrci {w : Word} (h : Inst.funct3 w = 0b111#3) :
    decodeSystem w = .ok (.csrrci (Inst.rd w) (Inst.csr w) (Inst.uimm w)) := by
  simp only [decodeSystem, h]

/-- Under funct3 000 bit 20 tells EBREAK from ECALL (rule R94). -/
theorem decodeSystem_of_funct3_zero {w : Word} (h : Inst.funct3 w = 0b000#3) :
    decodeSystem w = .ok (if w.getLsbD 20 then .ebreak else .ecall) := by
  simp only [decodeSystem, h]
  split <;> rfl

/-- A row with mask 0x10707F selects ECALL or EBREAK by its pattern's bit 20. -/
theorem encodes_system_bit20 {v : Word} (hv : v &&& 0x0010707F#32 = v) (hopcode : Inst.opcode v = 0b1110011#7)
    (hfunct3 : Inst.funct3 v = 0b000#3) :
    Encodes v 0x0010707F#32 fun _ => if v.getLsbD 20 then .ebreak else .ecall := by
  intro w h
  obtain ⟨hop, h3, hbit⟩ := (and_bit20_iff w v).mp (h.trans hv.symm)
  rw [decode_of_opcode_system (hop.trans hopcode), decodeSystem_of_funct3_zero (h3.trans hfunct3), hbit]

/-- Settles O36: FENCE is a stub, and the match and mask fix the opcode alone. -/
theorem fenceOnlyAdvancesThePc : Obligations.FenceOnlyAdvancesThePc :=
  ⟨fun _ _ _ _ _ => onlyMoves_of_stub fun _ => rfl,
    fun _ h => decode_of_opcode_fence (opcode_of_and_eq h (by decide))⟩

/-- Settles O37: the six CSR instructions are stubs, and the match and mask fix opcode and funct3. -/
theorem csrInstructionsOnlyAdvanceThePc : Obligations.CsrInstructionsOnlyAdvanceThePc :=
  ⟨fun _ _ _ => onlyMoves_of_stub fun _ => rfl, fun _ _ _ => onlyMoves_of_stub fun _ => rfl,
    fun _ _ _ => onlyMoves_of_stub fun _ => rfl, fun _ _ _ => onlyMoves_of_stub fun _ => rfl,
    fun _ _ _ => onlyMoves_of_stub fun _ => rfl, fun _ _ _ => onlyMoves_of_stub fun _ => rfl,
    encodes_system (by decide) (by decide) fun _ => decodeSystem_of_funct3_csrrw,
    encodes_system (by decide) (by decide) fun _ => decodeSystem_of_funct3_csrrs,
    encodes_system (by decide) (by decide) fun _ => decodeSystem_of_funct3_csrrc,
    encodes_system (by decide) (by decide) fun _ => decodeSystem_of_funct3_csrrwi,
    encodes_system (by decide) (by decide) fun _ => decodeSystem_of_funct3_csrrsi,
    encodes_system (by decide) (by decide) fun _ => decodeSystem_of_funct3_csrrci⟩

/-- Settles O38: ECALL and EBREAK are stubs, and the match and mask fix opcode, funct3 and bit 20. -/
theorem ecallEbreakOnlyAdvanceThePc : Obligations.EcallEbreakOnlyAdvanceThePc :=
  ⟨onlyMoves_of_stub fun _ => rfl, onlyMoves_of_stub fun _ => rfl,
    encodes_system_bit20 (by decide) (by decide) (by decide),
    encodes_system_bit20 (by decide) (by decide) (by decide)⟩

end Sys2Proof.Machine
end

section
/-! PROOFS. The family of spec/30_encoding.md: sample words (O1), the two round trips (O2, O3), the opcode table (O4),
the don't-care bits (O5), the illegal words (O6) and the immediates (O7). -/

namespace Sys2Proof

open Inst Claims Machine

/-- Settles O1: each sample word is computed by the decoder. -/
theorem sampleWordsDecode : Obligations.SampleWordsDecode := by
  unfold Obligations.SampleWordsDecode
  decide

/-! ## Every instruction decodes from its own word -/

theorem decode_of_opcode_branch {w : Word} (h : opcode w = 0b1100011#7) : decode w = decodeBranch w := by
  simp only [decode, h]

theorem decode_of_opcode_load {w : Word} (h : opcode w = 0b0000011#7) : decode w = decodeLoad w := by
  simp only [decode, h]

theorem decode_of_opcode_store {w : Word} (h : opcode w = 0b0100011#7) : decode w = decodeStore w := by
  simp only [decode, h]

/-- Settles O2: the word's opcode selects the function of the dispatcher, its funct3 and funct7 the form, and the fields
of each format are the operands; a branch or JAL offset comes back because its bit 0 is clear. -/
theorem decodeInvertsEncode : Obligations.DecodeInvertsEncode := by
  intro i hwf
  cases i
  case lui | auipc => simp [encode, decode]
  case jal => simp [encode, decode, off21J_encJ _ _ _ hwf]
  case jalr => simp [encode, decode]
  case fence => simp [encode, decode]
  case beq | bne | blt | bge | bltu | bgeu =>
    simp [encode, decode_of_opcode_branch, decodeBranch, off13B_encB _ _ _ _ _ hwf]
  case lb | lh | lw | lbu | lhu | lwu => simp [encode, decode_of_opcode_load, decodeLoad]
  case sb | sh | sw => simp [encode, decode_of_opcode_store, decodeStore]
  case addi | slti | sltiu | xori | ori | andi | slli | srli | srai =>
    simp [encode, decode_of_opcode_opImm, decodeOpImm]
  case add | sub | sll | slt | sltu | xor | srl | sra | or | and => simp [encode, decode_of_opcode_op, decodeOp]
  case csrrw | csrrs | csrrc | csrrwi | csrrsi | csrrci => simp [encode, decode_of_opcode_system, decodeSystem]
  case ecall | ebreak => decide

/-! ## A decoded word agrees with its instruction's own word -/

theorem encI_of_fields {w : Word} {f3 : BitVec 3} {op : BitVec 7} (hop : opcode w = op) (h3 : funct3 w = f3) :
    encI (imm12I w) (rs1 w) f3 (rd w) op = w := by
  rw [← hop, ← h3, encI_fields]

theorem encS_of_fields {w : Word} {f3 : BitVec 3} {op : BitVec 7} (hop : opcode w = op) (h3 : funct3 w = f3) :
    encS (imm12S w) (rs2 w) (rs1 w) f3 op = w := by
  rw [← hop, ← h3, encS_fields]

theorem encB_of_fields {w : Word} {f3 : BitVec 3} {op : BitVec 7} (hop : opcode w = op) (h3 : funct3 w = f3) :
    encB (off13B w) (rs2 w) (rs1 w) f3 op = w := by
  rw [← hop, ← h3, encB_fields]

theorem encU_of_opcode {w : Word} {op : BitVec 7} (hop : opcode w = op) : encU (imm20U w) (rd w) op = w := by
  rw [← hop, encU_fields]

theorem encJ_of_opcode {w : Word} {op : BitVec 7} (hop : opcode w = op) : encJ (off21J w) (rd w) op = w := by
  rw [← hop, encJ_fields]

theorem encR_of_fields {w : Word} {f7 : BitVec 7} {f3 : BitVec 3} {op : BitVec 7} (hop : opcode w = op)
    (h3 : funct3 w = f3) (h7 : funct7 w = f7) : encR f7 (rs2 w) (rs1 w) f3 (rd w) op = w := by
  rw [← hop, ← h3, ← h7, encR_fields]

/-- Where funct7 is not consulted the word comes back below bit 25 (R96). -/
theorem encR_low25_of_fields {w : Word} (f7 : BitVec 7) {f3 : BitVec 3} {op : BitVec 7} (hop : opcode w = op)
    (h3 : funct3 w = f3) : encR f7 (rs2 w) (rs1 w) f3 (rd w) op &&& 0x01FFFFFF#32 = w &&& 0x01FFFFFF#32 := by
  rw [encR_and_low25 f7 (funct7 w), encR_of_fields hop h3 rfl]

/-- Where funct3 is not consulted an I-format word comes back outside bits 14:12 (R96). -/
theorem encI_notFunct3_of_opcode {w : Word} (f3 : BitVec 3) {op : BitVec 7} (hop : opcode w = op) :
    encI (imm12I w) (rs1 w) f3 (rd w) op &&& 0xFFFF8FFF#32 = w &&& 0xFFFF8FFF#32 := by
  rw [encI_and_notFunct3 _ _ f3 (funct3 w), encI_of_fields hop rfl]

/-- What O3 says of a word and the instruction it decodes to. -/
def Recovers (w : Word) (i : Instr) : Prop := i.wf = true ∧ encode i &&& keptBits i = w &&& keptBits i

theorem recovers_of_encode_eq {w : Word} {i : Instr} (hwf : i.wf = true) (h : encode i = w) : Recovers w i :=
  ⟨hwf, by rw [h]⟩

theorem recovers_of_decodeBranch {w : Word} {i : Instr} (hop : opcode w = 0b1100011#7) (h : decodeBranch w = .ok i) :
    Recovers w i := by
  have heven := evenOffset_off13B w
  rcases decodeBranch_ok h with ⟨h3, rfl⟩ | ⟨h3, rfl⟩ | ⟨h3, rfl⟩ | ⟨h3, rfl⟩ | ⟨h3, rfl⟩ | ⟨h3, rfl⟩
  all_goals exact recovers_of_encode_eq heven (encB_of_fields hop h3)

theorem recovers_of_decodeLoad {w : Word} {i : Instr} (hop : opcode w = 0b0000011#7) (h : decodeLoad w = .ok i) :
    Recovers w i := by
  rcases decodeLoad_ok h with ⟨h3, rfl⟩ | ⟨h3, rfl⟩ | ⟨h3, rfl⟩ | ⟨h3, rfl⟩ | ⟨h3, rfl⟩ | ⟨h3, rfl⟩
  all_goals exact recovers_of_encode_eq rfl (encI_of_fields hop h3)

theorem recovers_of_decodeStore {w : Word} {i : Instr} (hop : opcode w = 0b0100011#7) (h : decodeStore w = .ok i) :
    Recovers w i := by
  rcases decodeStore_ok h with ⟨h3, rfl⟩ | ⟨h3, rfl⟩ | ⟨h3, rfl⟩
  all_goals exact recovers_of_encode_eq rfl (encS_of_fields hop h3)

theorem recovers_of_decodeOpImm {w : Word} {i : Instr} (hop : opcode w = 0b0010011#7) (h : decodeOpImm w = .ok i) :
    Recovers w i := by
  rcases decodeOpImm_ok h with ⟨h3, rfl⟩ | ⟨h3, rfl⟩ | ⟨h3, rfl⟩ | ⟨h3, rfl⟩ | ⟨h3, rfl⟩ | ⟨h3, rfl⟩ | ⟨h3, rfl⟩ |
    ⟨h3, h7, rfl⟩ | ⟨h3, h7, rfl⟩
  iterate 6 exact recovers_of_encode_eq rfl (encI_of_fields hop h3)
  · exact ⟨rfl, encR_low25_of_fields _ hop h3⟩
  iterate 2 exact recovers_of_encode_eq rfl (encR_of_fields hop h3 h7)

theorem recovers_of_decodeOp {w : Word} {i : Instr} (hop : opcode w = 0b0110011#7) (h : decodeOp w = .ok i) :
    Recovers w i := by
  rcases decodeOp_ok h with ⟨h3, h7, rfl⟩ | ⟨h3, h7, rfl⟩ | ⟨h3, rfl⟩ | ⟨h3, rfl⟩ | ⟨h3, rfl⟩ | ⟨h3, rfl⟩ |
    ⟨h3, h7, rfl⟩ | ⟨h3, h7, rfl⟩ | ⟨h3, rfl⟩ | ⟨h3, rfl⟩
  iterate 2 exact recovers_of_encode_eq rfl (encR_of_fields hop h3 h7)
  iterate 4 exact ⟨rfl, encR_low25_of_fields _ hop h3⟩
  iterate 2 exact recovers_of_encode_eq rfl (encR_of_fields hop h3 h7)
  iterate 2 exact ⟨rfl, encR_low25_of_fields _ hop h3⟩

/-- Of ECALL's and EBREAK's word the opcode, the funct3 and bit 20 come back. -/
theorem recovers_of_bit20 {w : Word} {i : Instr} (hwf : i.wf = true) (hkept : keptBits i = 0x0010707F#32)
    (hop : opcode (encode i) = opcode w) (h3 : funct3 (encode i) = funct3 w)
    (hbit : (encode i).getLsbD 20 = w.getLsbD 20) : Recovers w i :=
  ⟨hwf, by rw [hkept]; exact (and_bit20_iff _ _).mpr ⟨hop, h3, hbit⟩⟩

theorem recovers_of_decodeSystem {w : Word} {i : Instr} (hop : opcode w = 0b1110011#7) (h : decodeSystem w = .ok i) :
    Recovers w i := by
  rcases decodeSystem_ok h with ⟨h3, hbit, rfl⟩ | ⟨h3, hbit, rfl⟩ | ⟨h3, rfl⟩ | ⟨h3, rfl⟩ | ⟨h3, rfl⟩ | ⟨h3, rfl⟩ |
    ⟨h3, rfl⟩ | ⟨h3, rfl⟩
  iterate 2 exact recovers_of_bit20 rfl rfl (by rw [hop]; decide) (by rw [h3]; decide) (by rw [hbit]; decide)
  iterate 6 exact recovers_of_encode_eq rfl (encI_of_fields hop h3)

/-- Settles O3: the dispatcher's opcode and each family's form give the format whose fields make up the word. -/
theorem encodeInvertsDecodeOnKeptBits : Obligations.EncodeInvertsDecodeOnKeptBits := by
  intro w i h
  rcases decode_ok h with ⟨hop, rfl⟩ | ⟨hop, rfl⟩ | ⟨hop, rfl⟩ | ⟨hop, rfl⟩ | ⟨hop, rfl⟩ | ⟨hop, hi⟩ | ⟨hop, hi⟩ |
    ⟨hop, hi⟩ | ⟨hop, hi⟩ | ⟨hop, hi⟩ | ⟨hop, hi⟩
  · exact recovers_of_encode_eq rfl (encU_of_opcode hop)
  · exact recovers_of_encode_eq rfl (encU_of_opcode hop)
  · exact recovers_of_encode_eq (evenOffset_off21J w) (encJ_of_opcode hop)
  · exact ⟨rfl, encI_notFunct3_of_opcode _ hop⟩
  · refine ⟨rfl, ?_⟩
    rw [encode, fence_fields]
    exact encI_notFunct3_of_opcode _ hop
  · exact recovers_of_decodeBranch hop hi
  · exact recovers_of_decodeLoad hop hi
  · exact recovers_of_decodeStore hop hi
  · exact recovers_of_decodeOpImm hop hi
  · exact recovers_of_decodeOp hop hi
  · exact recovers_of_decodeSystem hop hi

/-! ## The opcode table -/

/-- The words that match a row are one form's, and the row is that form's. -/
def Selects (r : OpcodeRow) : Prop := ∃ f : Word → Instr, Encodes r.pattern r.mask f ∧ ∀ w, (f w).row = r

theorem selects_upper : ∀ r ∈ opcodeRowsUpper, Selects r := by
  obtain ⟨-, hlui⟩ := luiLoadsTheUpperImmediate
  obtain ⟨-, hauipc⟩ := auipcAddsTheUpperImmediateToItsAddress
  obtain ⟨-, -, hjal⟩ := jalLinksAndJumps
  obtain ⟨-, -, hjalr⟩ := jalrLinksAndJumpsFromTheOldRegister
  simp only [opcodeRowsUpper, List.forall_mem_cons]
  exact ⟨⟨_, hlui, fun _ => rfl⟩, ⟨_, hauipc, fun _ => rfl⟩, ⟨_, hjal, fun _ => rfl⟩, ⟨_, hjalr, fun _ => rfl⟩,
    List.forall_mem_nil _⟩

theorem selects_branch : ∀ r ∈ opcodeRowsBranch, Selects r := by
  obtain ⟨-, -, hbeq, hbne⟩ := beqBneBranchOnEquality
  obtain ⟨-, -, hblt, hbge⟩ := bltBgeBranchOnSignedOrder
  obtain ⟨-, -, hbltu, hbgeu⟩ := bltuBgeuBranchOnUnsignedOrder
  simp only [opcodeRowsBranch, List.forall_mem_cons]
  exact ⟨⟨_, hbeq, fun _ => rfl⟩, ⟨_, hbne, fun _ => rfl⟩, ⟨_, hblt, fun _ => rfl⟩, ⟨_, hbge, fun _ => rfl⟩,
    ⟨_, hbltu, fun _ => rfl⟩, ⟨_, hbgeu, fun _ => rfl⟩, List.forall_mem_nil _⟩

theorem selects_load : ∀ r ∈ opcodeRowsLoad, Selects r := by
  obtain ⟨-, -, hlb, hlh⟩ := lbLhLoadSignExtended
  obtain ⟨-, hlw⟩ := lwLoadsTheWord
  obtain ⟨-, -, hlbu, hlhu⟩ := lbuLhuLoadZeroExtended
  obtain ⟨-, hlwu⟩ := lwuLoadsTheWord
  simp only [opcodeRowsLoad, List.forall_mem_cons]
  exact ⟨⟨_, hlb, fun _ => rfl⟩, ⟨_, hlh, fun _ => rfl⟩, ⟨_, hlw, fun _ => rfl⟩, ⟨_, hlbu, fun _ => rfl⟩,
    ⟨_, hlhu, fun _ => rfl⟩, ⟨_, hlwu, fun _ => rfl⟩, List.forall_mem_nil _⟩

theorem selects_store : ∀ r ∈ opcodeRowsStore, Selects r := by
  obtain ⟨-, -, hsb, hsh⟩ := sbShStoreTheLowBytes
  obtain ⟨-, hsw⟩ := swStoresTheWord
  simp only [opcodeRowsStore, List.forall_mem_cons]
  exact ⟨⟨_, hsb, fun _ => rfl⟩, ⟨_, hsh, fun _ => rfl⟩, ⟨_, hsw, fun _ => rfl⟩, List.forall_mem_nil _⟩

theorem selects_aluImm : ∀ r ∈ opcodeRowsAluImm, Selects r := by
  obtain ⟨-, -, haddi, hslti⟩ := addiSltiComputeOnTheSignedImmediate
  obtain ⟨-, -, -, -, hsltiu, hxori, hori, handi⟩ := sltiuAndLogicalImmediatesAreSignExtended
  obtain ⟨-, hslli⟩ := slliShiftsByTheLowFiveBits
  obtain ⟨-, -, hsrli, hsrai⟩ := srliSraiShiftRight
  simp only [opcodeRowsAluImm, List.forall_mem_cons]
  exact ⟨⟨_, haddi, fun _ => rfl⟩, ⟨_, hslti, fun _ => rfl⟩, ⟨_, hsltiu, fun _ => rfl⟩, ⟨_, hxori, fun _ => rfl⟩,
    ⟨_, hori, fun _ => rfl⟩, ⟨_, handi, fun _ => rfl⟩, ⟨_, hslli, fun _ => rfl⟩, ⟨_, hsrli, fun _ => rfl⟩,
    ⟨_, hsrai, fun _ => rfl⟩, List.forall_mem_nil _⟩

theorem selects_aluReg : ∀ r ∈ opcodeRowsAluReg, Selects r := by
  obtain ⟨-, -, hadd, hsub⟩ := addSubWrapSilently
  obtain ⟨-, -, hsrl, hsra⟩ := srlSraShiftByTheLowFiveBits
  obtain ⟨-, -, -, -, -, -, hsll, hslt, hsltu, hxor, hor, hand⟩ := sllSltSltuXorOrAndCompute
  simp only [opcodeRowsAluReg, List.forall_mem_cons]
  exact ⟨⟨_, hadd, fun _ => rfl⟩, ⟨_, hsub, fun _ => rfl⟩, ⟨_, hsll, fun _ => rfl⟩, ⟨_, hslt, fun _ => rfl⟩,
    ⟨_, hsltu, fun _ => rfl⟩, ⟨_, hxor, fun _ => rfl⟩, ⟨_, hsrl, fun _ => rfl⟩, ⟨_, hsra, fun _ => rfl⟩,
    ⟨_, hor, fun _ => rfl⟩, ⟨_, hand, fun _ => rfl⟩, List.forall_mem_nil _⟩

theorem selects_system : ∀ r ∈ opcodeRowsSystem, Selects r := by
  obtain ⟨-, hfence⟩ := fenceOnlyAdvancesThePc
  obtain ⟨-, -, -, -, -, -, hcsrrw, hcsrrs, hcsrrc, hcsrrwi, hcsrrsi, hcsrrci⟩ := csrInstructionsOnlyAdvanceThePc
  obtain ⟨-, -, hecall, hebreak⟩ := ecallEbreakOnlyAdvanceThePc
  simp only [opcodeRowsSystem, List.forall_mem_cons]
  exact ⟨⟨_, hfence, fun _ => rfl⟩, ⟨_, hcsrrw, fun _ => rfl⟩, ⟨_, hcsrrs, fun _ => rfl⟩, ⟨_, hcsrrc, fun _ => rfl⟩,
    ⟨_, hcsrrwi, fun _ => rfl⟩, ⟨_, hcsrrsi, fun _ => rfl⟩, ⟨_, hcsrrci, fun _ => rfl⟩, ⟨_, hecall, fun _ => rfl⟩,
    ⟨_, hebreak, fun _ => rfl⟩, List.forall_mem_nil _⟩

/-- Each row of the table selects its form: every instruction's own statement says so of its match and mask. -/
theorem selects_of_mem {r : OpcodeRow} (h : r ∈ opcodeTable) : Selects r := by
  simp only [opcodeTable, List.mem_append] at h
  rcases h with (((((h | h) | h) | h) | h) | h) | h
  · exact selects_upper r h
  · exact selects_branch r h
  · exact selects_load r h
  · exact selects_store r h
  · exact selects_aluImm r h
  · exact selects_aluReg r h
  · exact selects_system r h

/-- A word that matches a row of the table decodes to an instruction of that row. -/
theorem decode_of_matches {w : Word} {r : OpcodeRow} (hr : r ∈ opcodeTable) (h : w &&& r.mask = r.pattern) :
    ∃ i, decode w = .ok i ∧ i.row = r := by
  obtain ⟨f, hdec, hrow⟩ := selects_of_mem hr
  exact ⟨f w, hdec w h, hrow w⟩

theorem row_mem_opcodeTable (i : Instr) : i.row ∈ opcodeTable := by
  cases i <;> exact List.mem_of_elem_eq_true rfl

/-- The family `Laws.TableRow`, one lemma per constructor, as one statement. -/
theorem encode_and_mask (i : Instr) : encode i &&& i.row.mask = i.row.pattern :=
  match i with
  | .lui rd imm => Laws.TableRow.lui rd imm
  | .auipc rd imm => Laws.TableRow.auipc rd imm
  | .jal rd off => Laws.TableRow.jal rd off
  | .jalr rd rs1 imm => Laws.TableRow.jalr rd rs1 imm
  | .beq rs1 rs2 off => Laws.TableRow.beq rs1 rs2 off
  | .bne rs1 rs2 off => Laws.TableRow.bne rs1 rs2 off
  | .blt rs1 rs2 off => Laws.TableRow.blt rs1 rs2 off
  | .bge rs1 rs2 off => Laws.TableRow.bge rs1 rs2 off
  | .bltu rs1 rs2 off => Laws.TableRow.bltu rs1 rs2 off
  | .bgeu rs1 rs2 off => Laws.TableRow.bgeu rs1 rs2 off
  | .lb rd rs1 imm => Laws.TableRow.lb rd rs1 imm
  | .lh rd rs1 imm => Laws.TableRow.lh rd rs1 imm
  | .lw rd rs1 imm => Laws.TableRow.lw rd rs1 imm
  | .lbu rd rs1 imm => Laws.TableRow.lbu rd rs1 imm
  | .lhu rd rs1 imm => Laws.TableRow.lhu rd rs1 imm
  | .lwu rd rs1 imm => Laws.TableRow.lwu rd rs1 imm
  | .sb rs2 rs1 imm => Laws.TableRow.sb rs2 rs1 imm
  | .sh rs2 rs1 imm => Laws.TableRow.sh rs2 rs1 imm
  | .sw rs2 rs1 imm => Laws.TableRow.sw rs2 rs1 imm
  | .addi rd rs1 imm => Laws.TableRow.addi rd rs1 imm
  | .slti rd rs1 imm => Laws.TableRow.slti rd rs1 imm
  | .sltiu rd rs1 imm => Laws.TableRow.sltiu rd rs1 imm
  | .xori rd rs1 imm => Laws.TableRow.xori rd rs1 imm
  | .ori rd rs1 imm => Laws.TableRow.ori rd rs1 imm
  | .andi rd rs1 imm => Laws.TableRow.andi rd rs1 imm
  | .slli rd rs1 shamt => Laws.TableRow.slli rd rs1 shamt
  | .srli rd rs1 shamt => Laws.TableRow.srli rd rs1 shamt
  | .srai rd rs1 shamt => Laws.TableRow.srai rd rs1 shamt
  | .add rd rs1 rs2 => Laws.TableRow.add rd rs1 rs2
  | .sub rd rs1 rs2 => Laws.TableRow.sub rd rs1 rs2
  | .sll rd rs1 rs2 => Laws.TableRow.sll rd rs1 rs2
  | .slt rd rs1 rs2 => Laws.TableRow.slt rd rs1 rs2
  | .sltu rd rs1 rs2 => Laws.TableRow.sltu rd rs1 rs2
  | .xor rd rs1 rs2 => Laws.TableRow.xor rd rs1 rs2
  | .srl rd rs1 rs2 => Laws.TableRow.srl rd rs1 rs2
  | .sra rd rs1 rs2 => Laws.TableRow.sra rd rs1 rs2
  | .or rd rs1 rs2 => Laws.TableRow.or rd rs1 rs2
  | .and rd rs1 rs2 => Laws.TableRow.and rd rs1 rs2
  | .fence fm pred succ rs1 rd => Laws.TableRow.fence fm pred succ rs1 rd
  | .csrrw rd csr rs1 => Laws.TableRow.csrrw rd csr rs1
  | .csrrs rd csr rs1 => Laws.TableRow.csrrs rd csr rs1
  | .csrrc rd csr rs1 => Laws.TableRow.csrrc rd csr rs1
  | .csrrwi rd csr uimm => Laws.TableRow.csrrwi rd csr uimm
  | .csrrsi rd csr uimm => Laws.TableRow.csrrsi rd csr uimm
  | .csrrci rd csr uimm => Laws.TableRow.csrrci rd csr uimm
  | .ecall => Laws.TableRow.ecall
  | .ebreak => Laws.TableRow.ebreak

theorem mask_and_keptBits (i : Instr) : keptBits i &&& i.row.mask = i.row.mask := by
  cases i <;> dsimp only [keptBits, Instr.row] <;> decide

/-- Words that agree on a mask agree on every mask inside it. -/
theorem and_eq_of_and_eq {w v m n : Word} (h : w &&& m = v &&& m) (hmn : m &&& n = n) : w &&& n = v &&& n := by
  rw [← hmn, ← BitVec.and_assoc, h, BitVec.and_assoc]

/-- A word that decodes matches the row of its instruction: the instruction's own word does, and it agrees with it on
the kept bits, which the mask's are among. -/
theorem matches_row_of_decode {w : Word} {i : Instr} (h : decode w = .ok i) : w &&& i.row.mask = i.row.pattern := by
  obtain ⟨-, hkept⟩ := encodeInvertsDecodeOnKeptBits w i h
  rw [← and_eq_of_and_eq hkept (mask_and_keptBits i), encode_and_mask]

/-- Settles O4: a word that matches a row decodes to an instruction of that row, so it matches no second one and none
matches a rejected word; a decoded word matches its own instruction's row. -/
theorem opcodeTableDecidesDecoding : Obligations.OpcodeTableDecidesDecoding := by
  intro w
  refine ⟨fun r hr q hq hwr hwq => ?_, fun i h => ⟨row_mem_opcodeTable i, matches_row_of_decode h⟩,
    fun e h r hr hwr => ?_⟩
  · obtain ⟨i, hi, rfl⟩ := decode_of_matches hr hwr
    obtain ⟨j, hj, rfl⟩ := decode_of_matches hq hwq
    rw [Except.ok.inj (hi.symm.trans hj)]
  · obtain ⟨i, hi, -⟩ := decode_of_matches hr hwr
    cases hi.symm.trans h

/-! ## Bits that do not matter -/

/-- Words that agree on a mask have the same field where the mask covers it. -/
theorem extractLsb'_eq_of_and_eq {w v m : Word} {k n : Nat} (h : w &&& m = v &&& m)
    (hm : m.extractLsb' k n = BitVec.allOnes n) : w.extractLsb' k n = v.extractLsb' k n := by
  have hfield := congrArg (BitVec.extractLsb' k n) h
  rwa [BitVec.extractLsb'_and, BitVec.extractLsb'_and, hm, BitVec.and_allOnes, BitVec.and_allOnes] at hfield

/-- What O5 says of a word: it decodes to an instruction of the same row, with the same effect. -/
def SameEffect (w : Word) (i : Instr) : Prop :=
  ∃ j, decode w = .ok j ∧ j.mnemonic = i.mnemonic ∧ ∀ s, exec j s = exec i s

theorem sameEffect_of_decode {w : Word} {i : Instr} (h : decode w = .ok i) : SameEffect w i :=
  ⟨i, h, rfl, fun _ => rfl⟩

/-- Where every bit is used the word is the same word. -/
theorem sameEffect_of_allOnes {w w' : Word} {i : Instr} (h : decode w = .ok i) (hused : usedBits i = BitVec.allOnes 32)
    (heq : w &&& usedBits i = w' &&& usedBits i) : SameEffect w' i := by
  rw [hused, BitVec.and_allOnes, BitVec.and_allOnes] at heq
  exact sameEffect_of_decode (heq ▸ h)

/-- Without funct7 the shift by an immediate is decoded from the bits below 25. -/
theorem decodeOpImm_slli_congr {w w' : Word} (h3 : funct3 w = 0b001#3)
    (h : w &&& 0x01FFFFFF#32 = w' &&& 0x01FFFFFF#32) : decodeOpImm w' = decodeOpImm w := by
  have e3 : funct3 w = funct3 w' := extractLsb'_eq_of_and_eq h (by decide)
  have ed : rd w = rd w' := extractLsb'_eq_of_and_eq h (by decide)
  have e1 : rs1 w = rs1 w' := extractLsb'_eq_of_and_eq h (by decide)
  have es : shamt w = shamt w' := extractLsb'_eq_of_and_eq h (by decide)
  rw [decodeOpImm_of_funct3_slli h3, decodeOpImm_of_funct3_slli (e3.symm.trans h3), ed, e1, es]

/-- Under a funct3 other than 000 and 101 a register form is decoded from the bits below 25. -/
theorem decodeOp_congr {w w' : Word} (h0 : funct3 w ≠ 0b000#3) (h5 : funct3 w ≠ 0b101#3)
    (h : w &&& 0x01FFFFFF#32 = w' &&& 0x01FFFFFF#32) : decodeOp w' = decodeOp w := by
  have e3 : funct3 w = funct3 w' := extractLsb'_eq_of_and_eq h (by decide)
  have ed : rd w = rd w' := extractLsb'_eq_of_and_eq h (by decide)
  have e1 : rs1 w = rs1 w' := extractLsb'_eq_of_and_eq h (by decide)
  have e2 : rs2 w = rs2 w' := extractLsb'_eq_of_and_eq h (by decide)
  rcases funct3_values (funct3 w) with h3 | h3 | h3 | h3 | h3 | h3 | h3 | h3
  · exact absurd h3 h0
  iterate 4 simp [decodeOp, h3, e3.symm.trans h3, ed, e1, e2]
  · exact absurd h3 h5
  iterate 2 simp [decodeOp, h3, e3.symm.trans h3, ed, e1, e2]

/-- The SYSTEM instructions are stubs, all of them. -/
theorem exec_of_decodeSystem {w : Word} {i : Instr} (h : decodeSystem w = .ok i) (s : State) : exec i s = stub s := by
  rcases decodeSystem_ok h with ⟨-, -, rfl⟩ | ⟨-, -, rfl⟩ | ⟨-, rfl⟩ | ⟨-, rfl⟩ | ⟨-, rfl⟩ | ⟨-, rfl⟩ | ⟨-, rfl⟩ |
    ⟨-, rfl⟩
  all_goals rfl

/-- A JALR word is decoded from the bits outside its funct3. -/
theorem decode_jalr_congr {w w' : Word} (hop : opcode w = 0b1100111#7)
    (h : w &&& 0xFFFF8FFF#32 = w' &&& 0xFFFF8FFF#32) : decode w' = decode w := by
  have eop : opcode w = opcode w' := extractLsb'_eq_of_and_eq h (by decide)
  have ed : rd w = rd w' := extractLsb'_eq_of_and_eq h (by decide)
  have e1 : rs1 w = rs1 w' := extractLsb'_eq_of_and_eq h (by decide)
  have ei : imm12I w = imm12I w' := extractLsb'_eq_of_and_eq h (by decide)
  rw [decode_of_opcode_jalr hop, decode_of_opcode_jalr (eop.symm.trans hop), ed, e1, ei]

theorem opcode_usedBits (i : Instr) : opcode (usedBits i) = BitVec.allOnes 7 := by
  cases i <;> dsimp only [usedBits] <;> decide

/-- Where the used bits are the row's mask, a word that agrees on them is of the same row. -/
theorem decode_of_usedBits_eq_mask {w w' : Word} {i : Instr} (h : decode w = .ok i) (hused : usedBits i = i.row.mask)
    (heq : w &&& usedBits i = w' &&& usedBits i) : ∃ j, decode w' = .ok j ∧ j.row = i.row := by
  rw [hused] at heq
  exact decode_of_matches (row_mem_opcodeTable i) (heq.symm.trans (matches_row_of_decode h))

theorem usedBits_of_decodeBranch {w : Word} {i : Instr} (h : decodeBranch w = .ok i) :
    usedBits i = BitVec.allOnes 32 := by
  rcases decodeBranch_ok h with ⟨-, rfl⟩ | ⟨-, rfl⟩ | ⟨-, rfl⟩ | ⟨-, rfl⟩ | ⟨-, rfl⟩ | ⟨-, rfl⟩
  all_goals rfl

theorem usedBits_of_decodeLoad {w : Word} {i : Instr} (h : decodeLoad w = .ok i) :
    usedBits i = BitVec.allOnes 32 := by
  rcases decodeLoad_ok h with ⟨-, rfl⟩ | ⟨-, rfl⟩ | ⟨-, rfl⟩ | ⟨-, rfl⟩ | ⟨-, rfl⟩ | ⟨-, rfl⟩
  all_goals rfl

theorem usedBits_of_decodeStore {w : Word} {i : Instr} (h : decodeStore w = .ok i) :
    usedBits i = BitVec.allOnes 32 := by
  rcases decodeStore_ok h with ⟨-, rfl⟩ | ⟨-, rfl⟩ | ⟨-, rfl⟩
  all_goals rfl

/-- Of the immediate forms only SLLI leaves bits unused: its funct7. -/
theorem usedBits_of_decodeOpImm {w : Word} {i : Instr} (h : decodeOpImm w = .ok i) :
    usedBits i = BitVec.allOnes 32 ∨ usedBits i = 0x01FFFFFF#32 ∧ funct3 w = 0b001#3 := by
  rcases decodeOpImm_ok h with ⟨-, rfl⟩ | ⟨-, rfl⟩ | ⟨-, rfl⟩ | ⟨-, rfl⟩ | ⟨-, rfl⟩ | ⟨-, rfl⟩ | ⟨h3, rfl⟩ |
    ⟨-, -, rfl⟩ | ⟨-, -, rfl⟩
  iterate 6 exact .inl rfl
  · exact .inr ⟨rfl, h3⟩
  iterate 2 exact .inl rfl

/-- The register forms that leave funct7 unused are those of a funct3 other than 000 and 101. -/
theorem usedBits_of_decodeOp {w : Word} {i : Instr} (h : decodeOp w = .ok i) :
    usedBits i = BitVec.allOnes 32 ∨
      usedBits i = 0x01FFFFFF#32 ∧ funct3 w ≠ 0b000#3 ∧ funct3 w ≠ 0b101#3 := by
  rcases decodeOp_ok h with ⟨-, -, rfl⟩ | ⟨-, -, rfl⟩ | ⟨h3, rfl⟩ | ⟨h3, rfl⟩ | ⟨h3, rfl⟩ | ⟨h3, rfl⟩ |
    ⟨-, -, rfl⟩ | ⟨-, -, rfl⟩ | ⟨h3, rfl⟩ | ⟨h3, rfl⟩
  iterate 2 exact .inl rfl
  iterate 4 exact .inr ⟨rfl, by rw [h3]; decide, by rw [h3]; decide⟩
  iterate 2 exact .inl rfl
  iterate 2 exact .inr ⟨rfl, by rw [h3]; decide, by rw [h3]; decide⟩

/-- Of a SYSTEM word the used bits are those its row consults: all operands are ignored. -/
theorem usedBits_of_decodeSystem {w : Word} {i : Instr} (h : decodeSystem w = .ok i) : usedBits i = i.row.mask := by
  rcases decodeSystem_ok h with ⟨-, -, rfl⟩ | ⟨-, -, rfl⟩ | ⟨-, rfl⟩ | ⟨-, rfl⟩ | ⟨-, rfl⟩ | ⟨-, rfl⟩ | ⟨-, rfl⟩ |
    ⟨-, rfl⟩
  all_goals rfl

/-- A SYSTEM word that agrees on the used bits is of the same row, and every SYSTEM instruction is a stub. -/
theorem sameEffect_of_decodeSystem {w w' : Word} {i : Instr} (hop : opcode w = 0b1110011#7)
    (hop' : opcode w' = 0b1110011#7) (hi : decodeSystem w = .ok i) (heq : w &&& usedBits i = w' &&& usedBits i) :
    SameEffect w' i := by
  obtain ⟨j, hj, hrow⟩ :=
    decode_of_usedBits_eq_mask ((decode_of_opcode_system hop).trans hi) (usedBits_of_decodeSystem hi) heq
  have hj' : decodeSystem w' = .ok j := (decode_of_opcode_system hop').symm.trans hj
  exact ⟨j, hj, congrArg OpcodeRow.mnemonic hrow, fun s => by rw [exec_of_decodeSystem hj', exec_of_decodeSystem hi]⟩

/-- Settles O5: where every bit is used the word is the same; JALR, the shift by an immediate and six register forms are
decoded from their used bits to the same instruction; FENCE and the SYSTEM words are stubs, whatever their operands. -/
theorem dontCareBitsDoNotMatter : Obligations.DontCareBitsDoNotMatter := by
  intro w w' i h heq
  change SameEffect w' i
  have hsame : opcode w = opcode w' := extractLsb'_eq_of_and_eq heq (opcode_usedBits i)
  rcases decode_ok h with ⟨hop, rfl⟩ | ⟨hop, rfl⟩ | ⟨hop, rfl⟩ | ⟨hop, rfl⟩ | ⟨hop, rfl⟩ | ⟨hop, hi⟩ | ⟨hop, hi⟩ |
    ⟨hop, hi⟩ | ⟨hop, hi⟩ | ⟨hop, hi⟩ | ⟨hop, hi⟩
  all_goals have hop' := hsame.symm.trans hop
  iterate 3 exact sameEffect_of_allOnes h rfl heq
  · exact sameEffect_of_decode ((decode_jalr_congr hop heq).trans h)
  · exact ⟨_, decode_of_opcode_fence hop', rfl, fun _ => rfl⟩
  · exact sameEffect_of_allOnes h (usedBits_of_decodeBranch hi) heq
  · exact sameEffect_of_allOnes h (usedBits_of_decodeLoad hi) heq
  · exact sameEffect_of_allOnes h (usedBits_of_decodeStore hi) heq
  · rcases usedBits_of_decodeOpImm hi with hused | ⟨hused, h3⟩
    · exact sameEffect_of_allOnes h hused heq
    · rw [hused] at heq
      exact sameEffect_of_decode (by rw [decode_of_opcode_opImm hop', decodeOpImm_slli_congr h3 heq, hi])
  · rcases usedBits_of_decodeOp hi with hused | ⟨hused, h0, h5⟩
    · exact sameEffect_of_allOnes h hused heq
    · rw [hused] at heq
      exact sameEffect_of_decode (by rw [decode_of_opcode_op hop', decodeOp_congr h0 h5 heq, hi])
  · exact sameEffect_of_decodeSystem hop hop' hi heq

/-! ## The illegal words -/

/-- A word with no opcode of rule R91 is rejected: class (a). -/
theorem decode_of_opcode_undefined {w : Word} (h : opcode w ∉ [0x37#7, 0x17#7, 0x6F#7, 0x67#7, 0x63#7, 0x03#7, 0x23#7,
    0x13#7, 0x33#7, 0x0F#7, 0x73#7]) : decode w = .error .undefinedOpcode := by
  unfold decode
  split
  all_goals simp_all

theorem decodeBranch_of_funct3_undefined {w : Word} (h : funct3 w = 0b010#3 ∨ funct3 w = 0b011#3) :
    decodeBranch w = .error .branchFunct3 := by
  rcases h with h | h <;> simp [decodeBranch, h]

theorem decodeLoad_of_funct3_undefined {w : Word} (h : funct3 w = 0b011#3 ∨ funct3 w = 0b111#3) :
    decodeLoad w = .error .loadFunct3 := by
  rcases h with h | h <;> simp [decodeLoad, h]

theorem decodeSystem_of_funct3_undefined {w : Word} (h : funct3 w = 0b100#3) :
    decodeSystem w = .error .systemFunct3 := by
  simp [decodeSystem, h]

theorem decodeStore_of_funct3_ge {w : Word} (h : 3 ≤ (funct3 w).toNat) : decodeStore w = .error .storeFunct3 := by
  rcases funct3_values (funct3 w) with h3 | h3 | h3 | h3 | h3 | h3 | h3 | h3
  iterate 3 exact absurd (h3 ▸ h) (by decide)
  all_goals simp [decodeStore, h3]

/-- Where funct7 is consulted it is matched exactly (D8): any third value is rejected. -/
theorem decodeOpImm_of_funct7_other {w : Word} (h3 : funct3 w = 0b101#3) (h0 : funct7 w ≠ 0b0000000#7)
    (h20 : funct7 w ≠ 0b0100000#7) : decodeOpImm w = .error .opImmFunct7 := by
  cases h : decodeOpImm w with
  | error r => rw [(decodeOpImm_error h).1]
  | ok i => exact absurd (decodeOpImm_ok h) (by simp [h3, h0, h20])

theorem decodeOp_of_funct7_other {w : Word} (h3 : funct3 w = 0b000#3 ∨ funct3 w = 0b101#3) (h0 : funct7 w ≠ 0b0000000#7)
    (h20 : funct7 w ≠ 0b0100000#7) : decodeOp w = .error .opFunct7 := by
  cases h : decodeOp w with
  | error r => rw [(decodeOp_error h).1]
  | ok i => rcases h3 with h3 | h3 <;> exact absurd (decodeOp_ok h) (by simp [h3, h0, h20])

/-- The words of the seven classes are rejected. -/
theorem decode_error_of_illegal {w : Word} (h : Illegal w) : ∃ e, decode w = .error e := by
  rcases h with hop | ⟨hop, h3⟩ | ⟨hop, h3⟩ | ⟨hop, h3⟩ | ⟨hop, h3, h0, h20⟩ | ⟨hop, h3, h0, h20⟩ | ⟨hop, h3⟩
  · exact ⟨_, decode_of_opcode_undefined hop⟩
  · exact ⟨_, (decode_of_opcode_branch hop).trans (decodeBranch_of_funct3_undefined h3)⟩
  · exact ⟨_, (decode_of_opcode_load hop).trans (decodeLoad_of_funct3_undefined h3)⟩
  · exact ⟨_, (decode_of_opcode_store hop).trans (decodeStore_of_funct3_ge h3)⟩
  · exact ⟨_, (decode_of_opcode_opImm hop).trans (decodeOpImm_of_funct7_other h3 h0 h20)⟩
  · exact ⟨_, (decode_of_opcode_op hop).trans (decodeOp_of_funct7_other h3 h0 h20)⟩
  · exact ⟨_, (decode_of_opcode_system hop).trans (decodeSystem_of_funct3_undefined h3)⟩

/-- A rejected word is in one of the seven classes. -/
theorem illegal_of_decode_error {w : Word} {e : Reject} (h : decode w = .error e) : Illegal w := by
  rcases decode_error h with ⟨-, hop⟩ | ⟨hop, he⟩ | ⟨hop, he⟩ | ⟨hop, he⟩ | ⟨hop, he⟩ | ⟨hop, he⟩ | ⟨hop, he⟩
  · exact .inl hop
  · exact .inr (.inl ⟨hop, (decodeBranch_error he).2⟩)
  · exact .inr (.inr (.inl ⟨hop, (decodeLoad_error he).2⟩))
  · exact .inr (.inr (.inr (.inl ⟨hop, (decodeStore_error he).2⟩)))
  · exact .inr (.inr (.inr (.inr (.inl ⟨hop, (decodeOpImm_error he).2⟩))))
  · exact .inr (.inr (.inr (.inr (.inr (.inl ⟨hop, (decodeOp_error he).2⟩)))))
  · exact .inr (.inr (.inr (.inr (.inr (.inr ⟨hop, (decodeSystem_error he).2⟩)))))

/-- Bits 1:0 of every opcode of rule R91 are 11. -/
theorem illegal_of_low_bits {w : Word} (h : w.extractLsb' 0 2 ≠ 3#2) : Illegal w := by
  have hlow : w.extractLsb' 0 2 = (opcode w).extractLsb' 0 2 := by
    apply BitVec.eq_of_getLsbD_eq
    intro i hi
    simp [opcode, hi]
  have hall : ∀ op ∈ [0x37#7, 0x17#7, 0x6F#7, 0x67#7, 0x63#7, 0x03#7, 0x23#7, 0x13#7, 0x33#7, 0x0F#7, 0x73#7],
      op.extractLsb' 0 2 = 3#2 := by decide
  exact .inl fun hop => h (hlow.trans (hall (opcode w) hop))

/-- Settles O6: the dispatcher's errors are the classes, case by case, and `execute` reports every rejected word. -/
theorem illegalWordsAreExactlyTheListedClasses : Obligations.IllegalWordsAreExactlyTheListedClasses := by
  refine fun w => ⟨⟨fun ⟨_, he⟩ => illegal_of_decode_error he, decode_error_of_illegal⟩, illegal_of_low_bits,
    fun h s => ?_⟩
  obtain ⟨e, he⟩ := decode_error_of_illegal h
  exact execute_of_decode_error s he

/-! ## The immediates, bit by bit -/

/-- A sign extension to a word repeats the last bit. -/
theorem getLsbD_signExtend_word {n i : Nat} (x : BitVec n) (hi : i < 32) :
    (x.signExtend 32).getLsbD i = if i < n then x.getLsbD i else x.getLsbD (n - 1) := by
  simp only [BitVec.getLsbD_signExtend, hi, decide_true, Bool.true_and, BitVec.msb_eq_getLsbD_last]

theorem imm12I_bit (w : Word) {i : Nat} (hi : i < 12) : (imm12I w).getLsbD i = w.getLsbD (20 + i) := by
  simp [imm12I, hi]

theorem imm12S_bit (w : Word) {i : Nat} (hi : i < 12) :
    (imm12S w).getLsbD i = if i < 5 then w.getLsbD (7 + i) else w.getLsbD (20 + i) := by
  simp only [imm12S, BitVec.getLsbD_append, BitVec.getLsbD_extractLsb']
  interval_cases i <;> simp

theorem off13B_bit (w : Word) {i : Nat} (hi : i < 13) :
    (off13B w).getLsbD i = if i = 0 then false else if i < 5 then w.getLsbD (7 + i)
      else if i < 11 then w.getLsbD (20 + i) else if i = 11 then w.getLsbD 7 else w.getLsbD 31 := by
  simp only [off13B, BitVec.getLsbD_append, BitVec.getLsbD_extractLsb']
  interval_cases i <;> simp

theorem off21J_bit (w : Word) {i : Nat} (hi : i < 21) :
    (off21J w).getLsbD i = if i = 0 then false else if i < 11 then w.getLsbD (20 + i) else if i = 11 then w.getLsbD 20
      else if i < 20 then w.getLsbD i else w.getLsbD 31 := by
  simp only [off21J, BitVec.getLsbD_append, BitVec.getLsbD_extractLsb']
  interval_cases i <;> simp

theorem shamt_bit (w : Word) {i : Nat} (hi : i < 5) : (shamt w).getLsbD i = w.getLsbD (20 + i) := by
  simp [shamt, hi]

theorem getLsbD_immU (w : Word) {i : Nat} (hi : i < 32) :
    (immU (imm20U w)).getLsbD i = if i < 12 then false else w.getLsbD i := by
  simp only [immU, imm20U, BitVec.getLsbD_append, BitVec.getLsbD_extractLsb', BitVec.getLsbD_zero]
  split
  · rfl
  · rw [decide_eq_true (by omega), Bool.true_and, Nat.add_sub_cancel' (by omega)]

/-- Settles O7: each immediate's bits below its own width are the fields', and those above repeat its last bit, which is
bit 31 of the word. -/
theorem immediatesAreAssembledFromTheirBits : Obligations.ImmediatesAreAssembledFromTheirBits := by
  refine fun w i hi => ⟨?_, ?_, ?_, getLsbD_immU w hi, ?_, shamt_bit w⟩
  · rw [immI, getLsbD_signExtend_word _ hi]
    grind [imm12I_bit]
  · rw [immS, getLsbD_signExtend_word _ hi]
    grind [imm12S_bit]
  · rw [immB, getLsbD_signExtend_word _ hi]
    grind [off13B_bit]
  · rw [immJ, getLsbD_signExtend_word _ hi]
    grind [off21J_bit]

end Sys2Proof
end

section
/-! PROOFS. One step: which instruction it runs (O8), the order of its reports (O11), what a call returns (O12, O13) and
when it completes (O15). -/

namespace Sys2Proof.Machine

open Sys2Proof.Claims

/-- Settles O8: the step is `execute` of the word at the PC, which runs the instruction the word decodes to. -/
theorem stepRunsTheDecodedInstruction : Obligations.StepRunsTheDecodedInstruction :=
  fun s _ hadm hdec => (step_of_admits hadm).trans (execute_of_decode_ok s hdec)

/-- Settles O11: the fetch is refused, or its word is illegal, or its instruction's only fault is that of its access. -/
theorem faultsAreReportedInStepOrder : Obligations.FaultsAreReportedInStepOrder := by
  intro s f h
  by_cases hadm : Admits s.cfg s.pc 4
  · rw [step_of_admits hadm] at h
    cases hdec : decode (word s s.pc.toNat) with
    | ok i =>
      rw [execute_of_decode_ok s hdec] at h
      obtain ⟨k, a, w, hacc, hbad, hf⟩ := exec_fault h
      exact .inr (.inr ⟨hadm, i, k, a, w, rfl, hacc, hbad, hf⟩)
    | error e =>
      rw [execute_of_decode_error s hdec] at h
      exact .inr (.inl ⟨hadm, ⟨e, rfl⟩, (Host.Outcome.fault.inj h).symm⟩)
  · rw [step_of_not_admits hadm] at h
    exact .inl ⟨hadm, (Host.Outcome.fault.inj h).symm⟩

/-- Settles O12: a call returns its result's status, and with a fault the state it was called in. -/
theorem faultingCallChangesNothing : Obligations.FaultingCallChangesNothing := by
  refine fun s t => ⟨fun f h => ?step, settled_ok_iff s t _, fun w => ⟨fun f h => ?execute, settled_ok_iff s t _⟩⟩
  case step =>
    obtain ⟨rfl, hf⟩ := (settled_fault_iff s t f _).mp h
    exact ⟨rfl, h, hf⟩
  case execute =>
    obtain ⟨rfl, hf⟩ := (settled_fault_iff s t f _).mp h
    exact ⟨rfl, h, hf⟩

/-- A call whose result is no refusal returns a state and a status. -/
theorem settled_ne_none (s : State) {r : Result} (h : ∀ q, r ≠ .refused q) : settled s r ≠ none := by
  obtain ⟨c, hc⟩ := exists_settled s h
  rw [hc]
  nofun

/-- Settles O13: no instruction is refused, so no step and no word is, and every call settles. -/
theorem noStepIsRefused : Obligations.NoStepIsRefused :=
  fun s r => ⟨step_ne_refused s r, settled_ne_none s (step_ne_refused s),
    fun w => ⟨execute_ne_refused w s r, settled_ne_none s (execute_ne_refused w s)⟩⟩

/-- An instruction completes exactly when its data access, if it makes one, is admitted. -/
theorem exec_completes_iff (i : Instr) (s : State) : (∃ t, exec i s = .next t) ↔ AccessAdmitted s i := by
  constructor
  · rintro ⟨t, ht⟩ k a w hacc
    by_contra hbad
    cases ht.symm.trans (exec_of_not_admits hacc hbad)
  · intro hadm
    cases h : exec i s with
    | next t => exact ⟨t, rfl⟩
    | fault f =>
      obtain ⟨k, a, w, hacc, hbad, -⟩ := exec_fault h
      exact absurd (hadm k a w hacc) hbad
    | refused r => exact absurd h (exec_ne_refused i s r)

/-- A step that completes fetched a legal word and ran its instruction. -/
theorem step_next_iff (s t : State) : step s = .next t ↔
    Admits s.cfg s.pc 4 ∧ ∃ i, decode (word s s.pc.toNat) = .ok i ∧ exec i s = .next t := by
  constructor
  · intro h
    by_cases hadm : Admits s.cfg s.pc 4
    · rw [step_of_admits hadm] at h
      cases hdec : decode (word s s.pc.toNat) with
      | ok i => exact ⟨hadm, i, rfl, (execute_of_decode_ok s hdec).symm.trans h⟩
      | error e => cases (execute_of_decode_error s hdec).symm.trans h
    · cases (step_of_not_admits hadm).symm.trans h
  · rintro ⟨hadm, i, hdec, hexec⟩
    rw [step_of_admits hadm, execute_of_decode_ok s hdec, hexec]

/-- Settles O15: `step_next_iff`, and the instruction completes exactly when its access is admitted. -/
theorem stepCompletesExactlyWhenNothingIsRefused : Obligations.StepCompletesExactlyWhenNothingIsRefused := by
  intro s
  constructor
  · rintro ⟨t, ht⟩
    obtain ⟨hadm, i, hdec, hexec⟩ := (step_next_iff s t).mp ht
    exact ⟨hadm, i, hdec, (exec_completes_iff i s).mp ⟨t, hexec⟩⟩
  · rintro ⟨hadm, i, hdec, hacc⟩
    obtain ⟨t, hexec⟩ := (exec_completes_iff i s).mpr hacc
    exact ⟨t, (step_next_iff s t).mpr ⟨hadm, i, hdec, hexec⟩⟩

end Sys2Proof.Machine
end

section
/-! PROOFS. What every completed instruction keeps: the PC's two values (O39), the registers (O41), the memory (O43),
the parameters (O44), soundness (O55) and the evenness of the PC (O56), each read off the three cases of `exec_next`;
and the self-loop (O57). -/

namespace Sys2Proof.Machine

open Sys2Proof.Claims

/-- Settles O39: each case of a completed instruction sets the PC to one of the two values. -/
theorem onlyJumpsAndBranchesMoveThePcElsewhere : Obligations.OnlyJumpsAndBranchesMoveThePcElsewhere := by
  intro i s t h
  rcases exec_next h with ⟨rd, v, n, -, -, hn, rfl⟩ | ⟨n, -, -, hn, rfl⟩ | ⟨a, w, v, -, -, -, rfl⟩
  · exact hn
  · exact hn
  · exact .inl rfl

/-- Settles O41: a register write leaves the others, and the other two cases write none. -/
theorem onlyTheDestinationRegisterChanges : Obligations.OnlyTheDestinationRegisterChanges := by
  intro i s t h r hr
  rcases exec_next h with ⟨rd, v, n, hd, -, -, rfl⟩ | ⟨n, -, -, -, rfl⟩ | ⟨a, w, v, -, -, -, rfl⟩
  · have hne : r ≠ rd := fun e => hr (e ▸ hd)
    rw [readReg_setPc, readReg_writeReg_other s rd r v hne]
  · exact readReg_setPc s n r
  · rw [readReg_setPc, readReg_withMem]

/-- Settles O43: of the three cases only the store's changes the memory. -/
theorem onlyStoresChangeMemory : Obligations.OnlyStoresChangeMemory := by
  intro i s t h hstore b
  rcases exec_next h with ⟨rd, v, n, -, -, -, rfl⟩ | ⟨n, -, -, -, rfl⟩ | ⟨a, w, v, -, hacc, -, rfl⟩
  · rw [setPc_mem, writeReg_mem]
  · rw [setPc_mem]
  · exact absurd hacc (hstore a w)

theorem exec_keeps_cfg {i : Instr} {s t : State} (h : exec i s = .next t) : t.cfg = s.cfg := by
  rcases exec_next h with ⟨rd, v, n, -, -, -, rfl⟩ | ⟨n, -, -, -, rfl⟩ | ⟨a, w, v, -, -, -, rfl⟩
  · rw [setPc_cfg, writeReg_cfg]
  · rw [setPc_cfg]
  · rw [setPc_cfg]

/-- Settles O44: a step that completes is an instruction that does. -/
theorem stepsKeepTheParameters : Obligations.StepsKeepTheParameters := by
  intro s t h
  obtain ⟨-, i, -, hexec⟩ := (step_next_iff s t).mp h
  exact exec_keeps_cfg hexec

/-! ## Soundness -/

theorem sound_setPc {s : State} (h : s.Sound) (v : Word) : (s.setPc v).Sound :=
  ⟨h.config, h.canonical, h.region, h.zero⟩

/-- A register write keeps the storage behind x0, and touches nothing else a sound state speaks of (rule R22). -/
theorem sound_writeReg {s : State} (h : s.Sound) (r : Reg) (v : Word) : (s.writeReg r v).Sound where
  config := by rw [writeReg_cfg]; exact h.config
  canonical := by rw [writeReg_mem]; exact h.canonical
  region := by rw [writeReg_mem, writeReg_cfg]; exact h.region
  zero := by rw [writeReg_slot_zero, h.zero]

/-- An admitted store keeps the memory canonical and inside the region (rules R50, R51). -/
theorem sound_writeLE {s : State} (h : s.Sound) {a : Word} {w : Width} (hadm : Admits s.cfg a w.bytes) (v : Word) :
    ({ s with mem := s.mem.writeLE a.toNat v w } : State).Sound where
  config := h.config
  canonical := wf_writeLE h.canonical a.toNat v w
  region c hc := by
    obtain ⟨hlo, hhi, -⟩ := hadm
    rcases mem_writeLE hc with hold | ⟨hge, hlt⟩
    · exact h.region c hold
    · exact ⟨hlo.trans hge, hlt.trans_le hhi⟩
  zero := h.zero

/-- Settles O55: each case of a completed instruction is a register write, an admitted store or neither, and a write of
the PC. -/
theorem stepKeepsStatesSound : Obligations.StepKeepsStatesSound := by
  intro s t hs h
  obtain ⟨-, i, -, hexec⟩ := (step_next_iff s t).mp h
  rcases exec_next hexec with ⟨rd, v, n, -, -, -, rfl⟩ | ⟨n, -, -, -, rfl⟩ | ⟨a, w, v, -, -, hadm, rfl⟩
  · exact sound_setPc (sound_writeReg hs rd v) n
  · exact sound_setPc hs n
  · exact sound_setPc (sound_writeLE hs ((admits_iff_admitted _ _ _).mpr hadm) v) _

/-! ## The PC stays even -/

/-- A sum of two even words is even. -/
theorem getLsbD_zero_add {a b : Word} (ha : a.getLsbD 0 = false) (hb : b.getLsbD 0 = false) :
    (a + b).getLsbD 0 = false := by
  rw [BitVec.getLsbD_add (by decide), ha, hb, BitVec.carry_zero]
  rfl

theorem getLsbD_zero_signExtend {n : Nat} {x : BitVec n} (hn : 0 < n) (h : evenOffset x = true) :
    (x.signExtend 32).getLsbD 0 = false := by
  rw [getLsbD_signExtend_word x (by decide), if_pos hn]
  simpa [evenOffset] using h

/-- The target of a well-formed branch or jump is even (rules R86, R88, R161). -/
theorem even_jumpTarget {s : State} {i : Instr} {n : Word} (hpc : s.pc.getLsbD 0 = false) (hwf : i.wf = true)
    (h : jumpTarget s i = some n) : n.getLsbD 0 = false := by
  cases i
  case jal | beq | bne | blt | bge | bltu | bgeu =>
    cases h
    exact getLsbD_zero_add hpc (getLsbD_zero_signExtend (by decide) hwf)
  case jalr =>
    cases h
    rw [BitVec.getLsbD_and]
    exact Bool.and_false _
  all_goals cases h

/-- Settles O56: the next PC is pc + 4 or the target of a decoded instruction, which is well-formed. -/
theorem stepKeepsThePcEven : Obligations.StepKeepsThePcEven := by
  intro s t hpc h
  obtain ⟨-, i, hdec, hexec⟩ := (step_next_iff s t).mp h
  obtain ⟨hwf, -⟩ := encodeInvertsDecodeOnKeptBits _ i hdec
  rcases onlyJumpsAndBranchesMoveThePcElsewhere i s t hexec with hseq | htarget
  · rw [hseq]
    exact getLsbD_zero_add hpc rfl
  · exact even_jumpTarget hpc hwf htarget

/-! ## The self-loop -/

/-- JAL x0, 0 leaves the state as it was: the link is discarded and the target is its own address (rules R22, R160). -/
theorem exec_jal_self (s : State) : exec (.jal 0#5 0#21) s = .next s := by
  have htarget : s.pc + immJ 0#21 = s.pc := BitVec.add_zero s.pc
  rw [exec_jal, commitReg_eq, writeReg_zero, pcMux, htarget]
  rfl

/-- A state whose step leads back to it runs for any number of steps. -/
theorem runsFor_of_step_self {s : State} (h : step s = .next s) (k : Nat) : s.runsFor k := by
  induction k with
  | zero => trivial
  | succ k ih => exact ⟨s, h, ih⟩

/-- Settles O57: the word decodes to JAL x0, 0. -/
theorem selfLoopRunsForever : Obligations.SelfLoopRunsForever := by
  intro s hadm hword
  have hdec : decode (word s s.pc.toNat) = .ok (.jal 0#5 0#21) := by
    rw [hword]
    decide
  have hstep : step s = .next s := (step_next_iff s s).mpr ⟨hadm, _, hdec, exec_jal_self s⟩
  exact ⟨hstep, runsFor_of_step_self hstep⟩

end Sys2Proof.Machine
end

section
/-! PROOFS. Memory: when the bus refuses (O46), accesses of several widths (O47), a load after a store (O48), a fetch
after a store (O49), the canonical form (O50), and which registers an instruction depends on (O42). -/

namespace Sys2Proof.Machine

open Sys2Proof.Claims

/-! ## Which accesses the bus refuses -/

/-- The bytes of an access lie in the region exactly when its first and its last do (rule R51). -/
theorem forall_inRegion_iff (c : Config) (a : Nat) {n : Nat} (hn : 0 < n) :
    (∀ j, j < n → inRegion c (a + j)) ↔ c.memBase.toNat ≤ a ∧ a + n ≤ c.memBase.toNat + c.memSize := by
  constructor
  · intro h
    obtain ⟨hlo, -⟩ := h 0 hn
    obtain ⟨-, hhi⟩ := h (n - 1) (by omega)
    omega
  · rintro ⟨hlo, hhi⟩ j hj
    constructor <;> omega

theorem admits_iff_inRegion (c : Config) (a : Word) (w : Width) :
    Admits c a w.bytes ↔
      (∀ j, j < byteCount w → inRegion c (a.toNat + j)) ∧ (c.alignCheck = true → a.toNat % byteCount w = 0) := by
  have hn : 0 < w.bytes := by cases w <;> decide
  rw [byteCount_eq_bytes, forall_inRegion_iff c a.toNat hn, Admits, and_assoc]

theorem busStore_of_not_admits {s : State} {a : Word} {w : Width} (v : Word) (h : ¬ Admits s.cfg a w.bytes) :
    busStore s a w v = .error (.memoryFault .store a w) := by
  rw [admits_iff_admitted, Bool.not_eq_true] at h
  exact (busStore_error_iff s a w v _).mpr ⟨h, rfl⟩

/-- Settles O46: the condition is the bus's own, which decides both ports. -/
theorem busRefusesExactlyTheInadmissible : Obligations.BusRefusesExactlyTheInadmissible := by
  intro s k a w v
  dsimp only
  rw [← admits_iff_inRegion]
  exact ⟨fun hbad => ⟨busLoad_of_not_admits k hbad, busStore_of_not_admits v hbad⟩,
    fun hadm => ⟨⟨_, busLoad_of_admits k hadm⟩, _, busStore_of_admits v hadm⟩⟩

/-! ## Loads of a stored word -/

/-- Two neighbouring bytes of a word make a half (rule R52). -/
theorem byte_append_byte (v : Word) (k : Nat) : v.byte (k + 1) ++ v.byte k = v.extractLsb' (8 * k) 16 :=
  BitVec.extractLsb'_append_extractLsb'_eq_extractLsb' (by omega)

/-- An address a little above an admitted one does not wrap, since the region ends at 2^32 or before (rule R8). -/
theorem toNat_add_of_admits {c : Config} {a : Word} {n k : Nat} (hc : c.valid) (h : Admits c a n) (hk : k < n) :
    (a + BitVec.ofNat 32 k).toNat = a.toNat + k := by
  obtain ⟨-, hhi, -⟩ := h
  obtain ⟨-, hend⟩ := hc
  rw [BitVec.toNat_add, BitVec.toNat_ofNat]
  omega

/-- A part of an admitted access that is aligned in it is admitted (rules R51, R58). -/
theorem admits_part {c : Config} {a : Word} {n k m : Nat} (hc : c.valid) (h : Admits c a n) (hkm : k + m ≤ n)
    (hm : 0 < m) (hmk : m ∣ k) (hmn : m ∣ n) : Admits c (a + BitVec.ofNat 32 k) m := by
  have haddr := toNat_add_of_admits hc h (show k < n by omega)
  obtain ⟨hlo, hhi, halign⟩ := h
  refine ⟨by omega, by omega, fun hcheck => ?_⟩
  rw [haddr]
  have ha : n ∣ a.toNat := Nat.dvd_of_mod_eq_zero (halign hcheck)
  exact Nat.mod_eq_zero_of_dvd (Nat.dvd_add (hmn.trans ha) hmk)

section

variable {t : State} {a v : Word} (hc : t.cfg.valid) (hadm : Admits t.cfg a 4)
  (hbytes : ∀ j, j < 4 → t.mem.read (a.toNat + j) = v.byte j)

include hc hadm hbytes

/-- A byte load inside an admitted word returns that byte of it. -/
theorem busLoad_byte_of_word (k : AccessKind) {j : Nat} (hj : j < 4) :
    busLoad t k (a + BitVec.ofNat 32 j) .w8 = .ok ((v.byte j).setWidth 32) := by
  have hpart := admits_part (m := 1) hc hadm hj (by decide) (one_dvd j) (by decide)
  rw [busLoad_of_admits (w := .w8) k hpart, toNat_add_of_admits hc hadm hj, Memory.readLE, hbytes j hj]

/-- A half load at an even place of an admitted word returns that half of it. -/
theorem busLoad_half_of_word (k : AccessKind) {j : Nat} (hj : j + 1 < 4) (heven : 2 ∣ j) :
    busLoad t k (a + BitVec.ofNat 32 j) .w16 = .ok ((v.extractLsb' (8 * j) 16).setWidth 32) := by
  have hpart := admits_part (m := 2) hc hadm hj (by decide) heven (by decide)
  rw [busLoad_of_admits (w := .w16) k hpart, toNat_add_of_admits hc hadm (by omega), Memory.readLE, Nat.add_assoc,
    hbytes j (by omega), hbytes (j + 1) hj, byte_append_byte]

end

/-- Settles O47: the stored bytes stand in the admitted word, and the four loads are parts of it. -/
theorem mixedWidthsSeeTheSameBytes : Obligations.MixedWidthsSeeTheSameBytes := by
  intro s t k a v hwf hc hstore
  obtain ⟨hbus, ht⟩ := (busStore_ok_iff s t a .w32 v).mp hstore
  have hcfg : t.cfg = s.cfg := by rw [ht]
  have hbytes (j : Nat) (hj : j < 4) : t.mem.read (a.toNat + j) = v.byte j := by
    rw [ht, withMem_mem]
    exact read_writeLE_inside hwf a.toNat v .w32 hj
  have hadm : Admits t.cfg a 4 := hcfg ▸ (admits_iff_admitted _ _ _).mpr hbus
  rw [← hcfg] at hc
  have hbyte0 := busLoad_byte_of_word hc hadm hbytes k (j := 0) (by decide)
  have hhalf0 := busLoad_half_of_word hc hadm hbytes k (j := 0) (by decide) (by decide)
  rw [BitVec.add_zero] at hbyte0 hhalf0
  exact ⟨hbyte0, busLoad_byte_of_word hc hadm hbytes k (by decide), hhalf0,
    busLoad_half_of_word hc hadm hbytes k (by decide) (by decide)⟩

/-! ## After SW -/

/-- SW completes only when its access is admitted, and then leaves the word at its address. -/
theorem storeResult_of_exec_sw {s t : State} {rs2 rs1 : Reg} {imm : BitVec 12} (hwf : s.mem.wf)
    (h : exec (.sw rs2 rs1 imm) s = .next t) :
    Admits s.cfg (address rs1 imm s) 4 ∧ StoreResult s t (address rs1 imm s) 4 (s.readReg rs2) := by
  obtain ⟨hstores, -⟩ := swStoresTheWord
  obtain ⟨hadmitted, hrefused⟩ := hstores rs2 rs1 imm s hwf
  by_cases hadm : Admits s.cfg (address rs1 imm s) 4
  · obtain ⟨u, hu, hres⟩ := hadmitted hadm
    obtain rfl : u = t := Host.Outcome.next.inj (hu.symm.trans h)
    exact ⟨hadm, hres⟩
  · cases (hrefused hadm).symm.trans h

/-- The four bytes a store left make its word (rules R52, R53). -/
theorem word_of_storeResult {s t : State} {a v : Word} (h : StoreResult s t a 4 v) : word t a.toNat = v := by
  have hzero := h.bytes 0 (by decide)
  rw [Nat.add_zero] at hzero
  rw [word, h.bytes 3 (by decide), h.bytes 2 (by decide), h.bytes 1 (by decide), hzero]
  exact bytes_append v

/-- Settles O48: the load's address and the parameters are the store's, so it is admitted and reads the stored word. -/
theorem storeThenLoadReturnsTheValue : Obligations.StoreThenLoadReturnsTheValue := by
  intro s t rs2 rs1 rd rb imm imm' hwf hsw haddr
  obtain ⟨hadm, hres⟩ := storeResult_of_exec_sw hwf hsw
  obtain ⟨hloads, -⟩ := lwLoadsTheWord
  obtain ⟨hload, -⟩ := hloads rd rb imm' t
  dsimp only at hload
  rw [haddr, hres.params, word_of_storeResult hres] at hload
  exact hload hadm

/-- Settles O49: the next PC is the store's address, so the fetch is admitted and reads the stored word. -/
theorem nextFetchSeesTheStore : Obligations.NextFetchSeesTheStore := by
  intro s t rs2 rs1 imm hwf hsw haddr
  obtain ⟨hadm, hres⟩ := storeResult_of_exec_sw hwf hsw
  have hpc : t.pc = address rs1 imm s := hres.pc.trans haddr.symm
  have hfetch : Admits t.cfg t.pc 4 := by rwa [hpc, hres.params]
  rw [step_of_admits hfetch, hpc, word_of_storeResult hres]

/-! ## The canonical form -/

/-- In a canonical memory the first byte reads as something else than an unlisted one. -/
theorem read_head_ne_unlisted {c : Host.Cell} {m : Memory} (h : Memory.wf (c :: m)) :
    Memory.read (c :: m) c.1 ≠ Memory.unlisted := by
  rw [read_cons, if_pos rfl]
  exact h.2 c List.mem_cons_self

theorem wf_of_cons {c : Host.Cell} {m : Memory} (h : Memory.wf (c :: m)) : Memory.wf m :=
  ⟨(List.pairwise_cons.mp h.1).2, fun d hd => h.2 d (List.mem_cons_of_mem c hd)⟩

/-- What a canonical memory lists after its first byte reads as unlisted there. -/
theorem read_tail_head {c : Host.Cell} {m : Memory} (h : Memory.wf (c :: m)) : m.read c.1 = Memory.unlisted :=
  read_of_forall_lt (List.pairwise_cons.mp h.1).1

/-- Of two canonical memories that read the same, neither begins below the other. -/
theorem head_le_of_read_eq {c d : Host.Cell} {m n : Memory} (hm : Memory.wf (c :: m)) (hn : Memory.wf (d :: n))
    (h : ∀ a, Memory.read (c :: m) a = Memory.read (d :: n) a) : d.1 ≤ c.1 := by
  by_contra hlt
  refine read_head_ne_unlisted hm ((h c.1).trans (read_of_forall_lt fun e he => ?_))
  rcases List.mem_cons.mp he with rfl | he
  · omega
  · have := (List.pairwise_cons.mp hn.1).1 e he
    omega

/-- Settles O50: by induction on the two lists, whose first cells are the same cell. -/
theorem canonicalMemoryIsItsBytes : Obligations.CanonicalMemoryIsItsBytes := by
  intro m
  induction m with
  | nil =>
    intro n _ hn h
    cases n with
    | nil => rfl
    | cons d n => exact absurd (h d.1).symm (read_head_ne_unlisted hn)
  | cons c m ih =>
    intro n hm hn h
    cases n with
    | nil => exact absurd (h c.1) (read_head_ne_unlisted hm)
    | cons d n =>
      have haddr : c.1 = d.1 :=
        Nat.le_antisymm (head_le_of_read_eq hn hm fun a => (h a).symm) (head_le_of_read_eq hm hn h)
      have hbyte : c.2 = d.2 := by simpa [read_cons, haddr] using h c.1
      have htail (a : Nat) : Memory.read m a = Memory.read n a := by
        by_cases ha : c.1 = a
        · rw [← ha, read_tail_head hm, haddr, read_tail_head hn]
        · have hd : d.1 ≠ a := haddr ▸ ha
          simpa [read_cons, ha, hd] using h a
      rw [Prod.ext haddr hbyte, ih n (wf_of_cons hm) (wf_of_cons hn) htail]

/-! ## Which registers an instruction depends on -/

/-- What O42 says of the results of one instruction from two states, `d` being the register it writes. -/
def ResultsAgree (d : Option Reg) (p q : Result) : Prop :=
  (∀ f, p = .fault f ↔ q = .fault f) ∧
  ∀ t, p = .next t → ∃ v, q = .next v ∧ t.pc = v.pc ∧ (∀ r, d = some r → t.readReg r = v.readReg r) ∧
    ∀ a, t.mem.read a = v.mem.read a

theorem resultsAgree_fault (d : Option Reg) (f : Fault) : ResultsAgree d (.fault f) (.fault f) :=
  ⟨fun _ => Iff.rfl, nofun⟩

theorem resultsAgree_next {d : Option Reg} {t v : State} (hpc : t.pc = v.pc)
    (hdest : ∀ r, d = some r → t.readReg r = v.readReg r) (hmem : t.mem = v.mem) :
    ResultsAgree d (.next t) (.next v) := by
  refine ⟨fun _ => iff_of_false nofun nofun, fun _ h => ?_⟩
  cases h
  exact ⟨v, rfl, hpc, hdest, fun _ => by rw [hmem]⟩

section

variable {s u : State} (hpc : s.pc = u.pc) (hmem : s.mem = u.mem)

include hpc hmem

theorem resultsAgree_commitNone (n : PcSelect) : ResultsAgree none (commitNone s n) (commitNone u n) := by
  rw [commitNone_eq, commitNone_eq, hpc]
  exact resultsAgree_next rfl nofun hmem

theorem resultsAgree_commitReg (rd : Reg) (wb : WbSelect) (n : PcSelect) :
    ResultsAgree (some rd) (commitReg s rd wb n) (commitReg u rd wb n) := by
  rw [commitReg_eq, commitReg_eq, hpc]
  refine resultsAgree_next rfl (fun r hr => ?_) (by rw [setPc_mem, setPc_mem, writeReg_mem, writeReg_mem, hmem])
  obtain rfl : rd = r := Option.some.inj hr
  rw [(regResult_writeReg_setPc s rd _ _).dest, (regResult_writeReg_setPc u rd _ _).dest]

theorem resultsAgree_aluRegImm {op : AluOp} {rd rs1 : Reg} {b : Word} (h1 : s.readReg rs1 = u.readReg rs1) :
    ResultsAgree (some rd) (aluRegImm op rd rs1 b s) (aluRegImm op rd rs1 b u) := by
  unfold aluRegImm
  rw [h1]
  exact resultsAgree_commitReg hpc hmem rd _ _

theorem resultsAgree_aluRegReg {op : AluOp} {rd rs1 rs2 : Reg} (h1 : s.readReg rs1 = u.readReg rs1)
    (h2 : s.readReg rs2 = u.readReg rs2) :
    ResultsAgree (some rd) (aluRegReg op rd rs1 rs2 s) (aluRegReg op rd rs1 rs2 u) := by
  unfold aluRegReg
  rw [h1, h2]
  exact resultsAgree_commitReg hpc hmem rd _ _

theorem resultsAgree_branchIf {c : BranchCond} {rs1 rs2 : Reg} {off : BitVec 13} (h1 : s.readReg rs1 = u.readReg rs1)
    (h2 : s.readReg rs2 = u.readReg rs2) : ResultsAgree none (branchIf c rs1 rs2 off s) (branchIf c rs1 rs2 off u) := by
  unfold branchIf
  rw [h1, h2]
  exact resultsAgree_commitNone hpc hmem _

theorem resultsAgree_loadWith {w : Width} {e : LoadExt} {rd rs1 : Reg} {imm : BitVec 12} (hcfg : s.cfg = u.cfg)
    (h1 : s.readReg rs1 = u.readReg rs1) :
    ResultsAgree (some rd) (loadWith w e rd rs1 imm s) (loadWith w e rd rs1 imm u) := by
  rw [loadWith_eq, loadWith_eq, h1, hcfg, hmem]
  split
  · exact resultsAgree_commitReg hpc hmem rd _ _
  · exact resultsAgree_fault _ _

theorem resultsAgree_storeWith {w : Width} {rs2 rs1 : Reg} {imm : BitVec 12} (hcfg : s.cfg = u.cfg)
    (h1 : s.readReg rs1 = u.readReg rs1) (h2 : s.readReg rs2 = u.readReg rs2) :
    ResultsAgree none (storeWith w rs2 rs1 imm s) (storeWith w rs2 rs1 imm u) := by
  rw [storeWith_eq, storeWith_eq, h1, h2, hcfg, hmem]
  split
  · refine resultsAgree_commitNone ?_ ?_ _
    · exact hpc
    · rfl
  · exact resultsAgree_fault _ _

end

/-- Settles O42: canonical memories with the same bytes are the same, and each form uses no register but its sources. -/
theorem onlyTheSourceRegistersMatter : Obligations.OnlyTheSourceRegistersMatter := by
  intro i s u hs hu hsrc hpc hcfg hbytes
  have hmem : s.mem = u.mem := canonicalMemoryIsItsBytes s.mem u.mem hs hu hbytes
  change ResultsAgree (destination i) (exec i s) (exec i u)
  cases i
  case lui | auipc | jal => exact resultsAgree_commitReg hpc hmem _ _ _
  case jalr rd rs1 imm =>
    rw [exec_jalr, exec_jalr, hsrc rs1 (by simp [sources])]
    exact resultsAgree_commitReg hpc hmem _ _ _
  case beq rs1 rs2 _ | bne rs1 rs2 _ | blt rs1 rs2 _ | bge rs1 rs2 _ | bltu rs1 rs2 _ | bgeu rs1 rs2 _ =>
    exact resultsAgree_branchIf hpc hmem (hsrc rs1 (by simp [sources])) (hsrc rs2 (by simp [sources]))
  case lb _ rs1 _ | lh _ rs1 _ | lw _ rs1 _ | lbu _ rs1 _ | lhu _ rs1 _ | lwu _ rs1 _ =>
    exact resultsAgree_loadWith hpc hmem hcfg (hsrc rs1 (by simp [sources]))
  case sb rs2 rs1 _ | sh rs2 rs1 _ | sw rs2 rs1 _ =>
    exact resultsAgree_storeWith hpc hmem hcfg (hsrc rs1 (by simp [sources])) (hsrc rs2 (by simp [sources]))
  case addi _ rs1 _ | slti _ rs1 _ | sltiu _ rs1 _ | xori _ rs1 _ | ori _ rs1 _ | andi _ rs1 _ | slli _ rs1 _ |
      srli _ rs1 _ | srai _ rs1 _ =>
    exact resultsAgree_aluRegImm hpc hmem (hsrc rs1 (by simp [sources]))
  case add _ rs1 rs2 | sub _ rs1 rs2 | sll _ rs1 rs2 | slt _ rs1 rs2 | sltu _ rs1 rs2 | xor _ rs1 rs2 | srl _ rs1 rs2 |
      sra _ rs1 rs2 | or _ rs1 rs2 | and _ rs1 rs2 =>
    exact resultsAgree_aluRegReg hpc hmem (hsrc rs1 (by simp [sources])) (hsrc rs2 (by simp [sources]))
  case fence | csrrw | csrrs | csrrc | csrrwi | csrrsi | csrrci | ecall | ebreak =>
    exact resultsAgree_commitNone hpc hmem _

end Sys2Proof.Machine
end

section
/-! PROOFS. Construction and the host: the reset values (O51), the reset stack pointer (O53), the soundness of a
constructed state (O54), the host's actions (O58) and its probe (O59). -/

namespace Sys2Proof.Machine

open Sys2Proof.Claims

/-! ## The constructed state -/

theorem readReg_construct_sp (c : Config) (m : Memory) :
    (State.construct c m).readReg 2#5 = BitVec.ofNat 32 (c.memBase.toNat + c.memSize) :=
  (readReg_construct c m 2#5).trans (if_pos rfl)

/-- Settles O51: `readReg_construct` gives the registers, and the other fields are the construction's own. -/
theorem constructionGivesTheResetValues : Obligations.ConstructionGivesTheResetValues := by
  refine ⟨fun c m => ⟨construct_pc c m, readReg_construct_sp c m, fun r hr => ?_, construct_mem c m⟩, rfl⟩
  rw [readReg_construct, if_neg hr]

/-- Settles O54: the parameters and the memory are the given ones, and the storage behind x0 is never set. -/
theorem constructedStatesAreSound : Obligations.ConstructedStatesAreSound := by
  have hsound (c : Config) (m : Memory) (hc : c.valid) (hwf : m.wf) (hm : Memory.within c m) :
      (State.construct c m).Sound :=
    ⟨hc, hwf, hm, by simp [State.construct]⟩
  exact ⟨hsound, hsound Config.sample [] (by decide) (by decide) (by decide)⟩

/-! ## The reset stack pointer -/

/-- In a region smaller than the whole space x2 after reset is an address outside it, also where it wraps to 0. -/
theorem not_admits_reset_sp {c : Config} (hc : c.valid) (hsize : c.memSize < 2 ^ 32) {n : Nat} (hn : 0 < n) :
    ¬ Admits c (BitVec.ofNat 32 (c.memBase.toNat + c.memSize)) n := by
  rintro ⟨hlo, hhi, -⟩
  obtain ⟨-, hend⟩ := hc
  rw [BitVec.toNat_ofNat] at hlo hhi
  omega

/-- The address 0(x2) is x2. -/
theorem address_zero (r : Reg) (s : State) : address r 0#12 s = s.readReg r :=
  BitVec.add_zero _

/-- The address -4(x2) after reset is that of the region's last word. -/
theorem address_reset_sp_sub_four {c : Config} (m : Memory) (hsize : 4 ≤ c.memSize) :
    address 2#5 (BitVec.ofInt 12 (-4)) (State.construct c m) = BitVec.ofNat 32 (c.memBase.toNat + c.memSize - 4) := by
  have hoff : (BitVec.ofInt 12 (-4)).signExtend 32 = BitVec.ofNat 32 (2 ^ 32 - 4) := by decide
  rw [address, readReg_construct_sp, hoff, ← BitVec.ofNat_add]
  apply BitVec.eq_of_toNat_eq
  rw [BitVec.toNat_ofNat, BitVec.toNat_ofNat]
  omega

theorem admits_last_word {c : Config} (hc : c.valid) (hsize : 4 ≤ c.memSize)
    (halign : c.alignCheck = true → (c.memBase.toNat + c.memSize) % 4 = 0) :
    Admits c (BitVec.ofNat 32 (c.memBase.toNat + c.memSize - 4)) 4 := by
  obtain ⟨-, hend⟩ := hc
  have haddr : (BitVec.ofNat 32 (c.memBase.toNat + c.memSize - 4)).toNat = c.memBase.toNat + c.memSize - 4 := by
    rw [BitVec.toNat_ofNat]
    omega
  rw [Admits, haddr]
  refine ⟨by omega, by omega, fun hcheck => ?_⟩
  have := halign hcheck
  omega

/-- Settles O53: at 0(sp) no store is admitted, and the word at -4(sp) is the region's last. -/
theorem resetStackPointerIsOnePastTheTop : Obligations.ResetStackPointerIsOnePastTheTop := by
  intro c m rs2 hc hwf
  dsimp only
  obtain ⟨hsb, hsh, -⟩ := sbShStoreTheLowBytes
  obtain ⟨hsw, -⟩ := swStoresTheWord
  refine ⟨fun hsize => ?_, fun hsize halign => ?_⟩
  · have hbad {n : Nat} (hn : 0 < n) :
        ¬ Admits (State.construct c m).cfg (address 2#5 0#12 (State.construct c m)) n := by
      rw [construct_cfg, address_zero, readReg_construct_sp]
      exact not_admits_reset_sp hc hsize hn
    obtain ⟨-, hsbRefused⟩ := hsb rs2 2#5 0#12 (State.construct c m) hwf
    obtain ⟨-, hshRefused⟩ := hsh rs2 2#5 0#12 (State.construct c m) hwf
    obtain ⟨-, hswRefused⟩ := hsw rs2 2#5 0#12 (State.construct c m) hwf
    rw [← address_zero]
    exact ⟨hsbRefused (hbad (by decide)), hshRefused (hbad (by decide)), hswRefused (hbad (by decide))⟩
  · obtain ⟨hadmitted, -⟩ := hsw rs2 2#5 (BitVec.ofInt 12 (-4)) (State.construct c m) hwf
    rw [address_reset_sp_sub_four m hsize, construct_cfg] at hadmitted
    exact hadmitted (admits_last_word hc hsize halign)

/-! ## The host's actions -/

/-- A host's register write is that of an instruction without the write of the PC. -/
theorem regResult_writeReg (s : State) (r : Reg) (v : Word) : RegResult s (s.writeReg r v) r v s.pc where
  dest := (regResult_writeReg_setPc s r v s.pc).dest
  others := (regResult_writeReg_setPc s r v s.pc).others
  memory := (regResult_writeReg_setPc s r v s.pc).memory
  params := writeReg_cfg s r v
  pc := writeReg_pc s r v

/-- Every action of the host that is not refused keeps a state sound. -/
theorem sound_hostAct {s t : State} {h : HostAction} (hs : s.Sound) (hact : hostAct s h = .ok t) : t.Sound := by
  cases h with
  | writePc v =>
    cases hact
    exact sound_setPc hs v
  | writeReg r v =>
    cases hact
    exact sound_writeReg hs r v
  | store a w v =>
    obtain ⟨hadm, rfl⟩ := (busStore_ok_iff s t a w v).mp hact
    exact sound_writeLE hs ((admits_iff_admitted _ _ _).mpr hadm) v

/-- Settles O58: the two writes are the register ports', the store is the bus's, and each keeps a state sound. -/
theorem hostActionsAreGatedAndSound : Obligations.HostActionsAreGatedAndSound := by
  refine ⟨fun s v => ⟨_, rfl, pcResult_setPc s v⟩, fun s r v => ⟨_, rfl, regResult_writeReg s r v⟩,
    fun s a w v hwf => ?store, fun _ _ _ => sound_hostAct⟩
  rw [byteCount_eq_bytes]
  exact ⟨fun hadm => ⟨_, busStore_of_admits v hadm, fun j hj => read_writeLE_inside hwf a.toNat v w hj,
    fun b hb => read_writeLE_outside s.mem a.toNat v w hb, readReg_withMem s _, rfl, rfl⟩, busStore_of_not_admits v⟩

/-! ## The host's probe -/

/-- Where the PC admits a fetch the placed word's four bytes are stored there. -/
theorem placeAtPc_of_admits {s : State} (h : Admits s.cfg s.pc 4) (v : Word) :
    placeAtPc s v = { s with mem := s.mem.writeLE s.pc.toNat v .w32 } := by
  rw [placeAtPc, busStore_of_admits (w := .w32) v h]

theorem tableWord_of_lt {n : Nat} (h : n < 2 ^ 32) : tableWord 32 n = BitVec.ofNat 32 n := by
  rw [tableWord, Nat.mod_eq_of_lt h]

/-- Settles O59: the probe stores the word at the PC and nothing else, and the fetch reads it back. -/
theorem placedWordIsTheNextToRun : Obligations.PlacedWordIsTheNextToRun := by
  intro s n hwf hadm hn
  dsimp only
  rw [State.withFetchWord, tableWord_of_lt hn, placeAtPc_of_admits hadm]
  refine ⟨?_, rfl, rfl, readReg_withMem s _, fun b hb => read_writeLE_outside s.mem _ _ .w32 hb⟩
  refine step_of_fetch_ok ?_
  rw [fetch_of_admits (by exact hadm)]
  exact congrArg Except.ok (readLE_writeLE_word hwf s.pc.toNat _)

end Sys2Proof.Machine
end
